-- ==== Sys2Proof/Word.lean ====
section
/-! DEFINITION. The word types of the core: bytes, byte strings, 32-bit words and 256-bit numbers (spec/00_scope.md R9). -/

namespace Sys2Proof

/-- A byte: an integer in [0, 255] (R9). -/
abbrev Byte := BitVec 8

/-- A byte string: a finite sequence of bytes, index 0 first (R9). A character string is one ASCII byte per character (R75). -/
abbrev Bytes := List Byte

/-- A word: 32 bits (R12). A command word is one of these (R90). -/
abbrev Word32 := BitVec 32

/-- A Uint256: an unsigned 256-bit number, with no byte order of its own (R11, R21). -/
abbrev Uint256 := BitVec 256

end Sys2Proof
end

