-- ==== Sys2Proof/Syntax.lean ====
section
/-! DEFINITION. The commands of the core as data, one constructor per row of spec/opcode_table.json
(spec/30_encoding.md R93, R98), their assembler text, and the pseudo-instruction CHKSHARE (R100). -/

namespace Sys2Proof

/-- The index of a 256-bit integer register `u0`..`u3` (R21, R91). -/
abbrev UIdx := Fin 4

/-- The index of a byte-string register `s0`..`s3` (R22, R91). -/
abbrev SIdx := Fin 4

/-- A command. Operands stand destination first, as in the assembler syntax of R98; the register file of each index is
fixed by the command (R91). Both rows of `B58DEC` have a constructor of their own (log 10). -/
inductive Instr
  /-- `TOLE sd, ua` (R124) -/
  | tole (sd : SIdx) (ua : UIdx)
  /-- `FROMLE ud, sa` (R125) -/
  | fromle (ud : UIdx) (sa : SIdx)
  /-- `TOBEW sd, ua` (R126) -/
  | tobew (sd : SIdx) (ua : UIdx)
  /-- `RHWG sd, sa` (R127) -/
  | rhwg (sd sa : SIdx)
  /-- `HSER sd` (R141) -/
  | hser (sd : SIdx)
  /-- `WSWAP sd, sa` (R143) -/
  | wswap (sd sa : SIdx)
  /-- `TOTGT ud` (R162) -/
  | totgt (ud : UIdx)
  /-- `MEETS ua, ub`: hash first, target second (R164) -/
  | meets (ua ub : UIdx)
  /-- `B58DEC sd, sa`, no expected length (R184, E = 0) -/
  | b58dec (sd sa : SIdx)
  /-- `B58DEC sd, sa, #n`, expected length n (R184, E = 1, ELEN = n) -/
  | b58decLen (sd sa : SIdx) (n : Nat)
  /-- `B58ADDR sd, sa` (R189) -/
  | b58addr (sd sa : SIdx)
  /-- `DHASH sd, sa` (R187) -/
  | dhash (sd sa : SIdx)
  /-- `P2PKH sd, sa` (R211) -/
  | p2pkh (sd sa : SIdx)
  /-- `ADDRSCR sd, sa` (R213) -/
  | addrscr (sd sa : SIdx)
  /-- `POWH sd, sa` (R222) -/
  | powh (sd sa : SIdx)
  deriving DecidableEq, Repr

/-- The pseudo-instruction `CHKSHARE sx, sy, ua, ub` (R100): the share-validation flow, spelled as six commands in order. -/
def chkshare (sx sy : SIdx) (ua ub : UIdx) : List Instr :=
  [.hser sx, .wswap sx sx, .powh sy sx, .fromle ua sy, .totgt ub, .meets ua ub]

/-- The name of an s register in a listing (R98). -/
def sName (i : SIdx) : String := "s" ++ toString i.val

/-- The name of a u register in a listing (R98). -/
def uName (i : UIdx) : String := "u" ++ toString i.val

/-- A command as one line of assembler text (R98). -/
def Instr.asm : Instr → String
  | .tole sd ua => "TOLE " ++ sName sd ++ ", " ++ uName ua
  | .fromle ud sa => "FROMLE " ++ uName ud ++ ", " ++ sName sa
  | .tobew sd ua => "TOBEW " ++ sName sd ++ ", " ++ uName ua
  | .rhwg sd sa => "RHWG " ++ sName sd ++ ", " ++ sName sa
  | .hser sd => "HSER " ++ sName sd
  | .wswap sd sa => "WSWAP " ++ sName sd ++ ", " ++ sName sa
  | .totgt ud => "TOTGT " ++ uName ud
  | .meets ua ub => "MEETS " ++ uName ua ++ ", " ++ uName ub
  | .b58dec sd sa => "B58DEC " ++ sName sd ++ ", " ++ sName sa
  | .b58decLen sd sa n => "B58DEC " ++ sName sd ++ ", " ++ sName sa ++ ", #" ++ toString n
  | .b58addr sd sa => "B58ADDR " ++ sName sd ++ ", " ++ sName sa
  | .dhash sd sa => "DHASH " ++ sName sd ++ ", " ++ sName sa
  | .p2pkh sd sa => "P2PKH " ++ sName sd ++ ", " ++ sName sa
  | .addrscr sd sa => "ADDRSCR " ++ sName sd ++ ", " ++ sName sa
  | .powh sd sa => "POWH " ++ sName sd ++ ", " ++ sName sa

end Sys2Proof
end

