-- ==== Sys2Proof/WellFormed.lean ====
section
/-! DEFINITION. Which terms of `Instr` a command word can spell (spec/30_encoding.md R91, R92). Register indices are
`Fin 4`, so a bad index cannot be written; the expected length of `B58DEC` is the one operand that must be checked. -/

namespace Sys2Proof

/-- An expected length fits the 8-bit field ELEN: 0 ≤ n ≤ 255 (R92, R98). -/
def expectedLengthFits (n : Nat) : Bool := decide (n ≤ 255)

/-- The command is one that some command word spells. -/
def Instr.wellFormed : Instr → Bool
  | .tole _ _ => true
  | .fromle _ _ => true
  | .tobew _ _ => true
  | .rhwg _ _ => true
  | .hser _ => true
  | .wswap _ _ => true
  | .totgt _ => true
  | .meets _ _ => true
  | .b58dec _ _ => true
  | .b58decLen _ _ n => expectedLengthFits n
  | .b58addr _ _ => true
  | .dhash _ _ => true
  | .p2pkh _ _ => true
  | .addrscr _ _ => true
  | .powh _ _ => true

end Sys2Proof
end

