-- ==== Sys2Proof/Decode.lean ====
section
/-! DEFINITION. The command word (spec/30_encoding.md section 1 to 4): its fields, the opcode map, the decoder of R94,
the encoder of R101, and the match/mask rows of spec/opcode_table.json. There is no instruction byte order: a command
word is a 32-bit number (spec/20_memory.md R65), so decoder and encoder work on that number. -/

namespace Sys2Proof

/-- The 14 operations, one per opcode of R93. -/
inductive Op
  | tole | fromle | tobew | rhwg | hser | wswap | totgt | meets | b58dec | b58addr | dhash | p2pkh | addrscr | powh
  deriving DecidableEq, Repr

/-- The OPC value of each operation (R93). -/
def Op.code : Op → Nat
  | .tole => 0x10
  | .fromle => 0x11
  | .tobew => 0x12
  | .rhwg => 0x13
  | .hser => 0x20
  | .wswap => 0x21
  | .totgt => 0x30
  | .meets => 0x31
  | .b58dec => 0x40
  | .b58addr => 0x41
  | .dhash => 0x42
  | .p2pkh => 0x50
  | .addrscr => 0x51
  | .powh => 0x60

/-- The opcode map, in the order of R93. -/
def Op.all : List Op :=
  [.tole, .fromle, .tobew, .rhwg, .hser, .wswap, .totgt, .meets, .b58dec, .b58addr, .dhash, .p2pkh, .addrscr, .powh]

/-- The operation an OPC value selects; every other value spells no command (R93). -/
def opOfCode (opc : Nat) : Option Op := Op.all.find? fun op => op.code == opc

/-- Whether the operation uses the RD field (R93: all but `MEETS`). -/
def Op.usesRd : Op → Bool
  | .meets => false
  | .tole | .fromle | .tobew | .rhwg | .hser | .wswap | .totgt | .b58dec | .b58addr | .dhash | .p2pkh | .addrscr
  | .powh => true

/-- Whether the operation uses the RA field (R93: all but `HSER` and `TOTGT`). -/
def Op.usesRa : Op → Bool
  | .hser | .totgt => false
  | .tole | .fromle | .tobew | .rhwg | .wswap | .meets | .b58dec | .b58addr | .dhash | .p2pkh | .addrscr
  | .powh => true

/-- Whether the operation uses the RB field (R93: only `MEETS`). -/
def Op.usesRb : Op → Bool
  | .meets => true
  | .tole | .fromle | .tobew | .rhwg | .hser | .wswap | .totgt | .b58dec | .b58addr | .dhash | .p2pkh | .addrscr
  | .powh => false

/-- Whether the operation uses the fields E and ELEN (R93: only `B58DEC`). -/
def Op.takesLength : Op → Bool
  | .b58dec => true
  | .tole | .fromle | .tobew | .rhwg | .hser | .wswap | .totgt | .meets | .b58addr | .dhash | .p2pkh | .addrscr
  | .powh => false

/-- Field OPC, bits [31:24] (R90). -/
def opcField (c : Word32) : BitVec 8 := c.extractLsb' 24 8
/-- Field RD, bits [23:20] (R90). -/
def rdField (c : Word32) : BitVec 4 := c.extractLsb' 20 4
/-- Field RA, bits [19:16] (R90). -/
def raField (c : Word32) : BitVec 4 := c.extractLsb' 16 4
/-- Field RB, bits [15:12] (R90). -/
def rbField (c : Word32) : BitVec 4 := c.extractLsb' 12 4
/-- The reserved bits [11:9] (R90). -/
def zField (c : Word32) : BitVec 3 := c.extractLsb' 9 3
/-- Field E, bit [8] (R90). -/
def eField (c : Word32) : BitVec 1 := c.extractLsb' 8 1
/-- Field ELEN, bits [7:0] (R90). -/
def elenField (c : Word32) : BitVec 8 := c.extractLsb' 0 8

/-- Why a word spells no command: the conditions of R94, by name. All of them execute as `IllegalCommand`. -/
inductive Illegal
  /-- OPC is not in the table of R93 -/
  | unknownOpcode
  /-- bits [11:9] are not 0 -/
  | reservedBits
  /-- a used register field is greater than 3 -/
  | registerIndex
  /-- an unused register field is not 0 -/
  | unusedField
  /-- E or ELEN is not 0 in a command other than `B58DEC` -/
  | unusedLength
  /-- `B58DEC` with E = 0 and ELEN not 0 -/
  | lengthWithoutE
  deriving DecidableEq, Repr

/-- The check of one register field (R94): a used one is at most 3, an unused one is 0. -/
def checkField (used : Bool) (v : BitVec 4) : Option Illegal :=
  if used then (if v.toNat > 3 then some .registerIndex else none)
  else (if v ≠ 0#4 then some .unusedField else none)

/-- The checks of R94 on a word whose opcode is known, in the order of R94: the first that fails. -/
def firstIllegal (op : Op) (c : Word32) : Option Illegal :=
  if zField c ≠ 0#3 then some .reservedBits
  else match checkField op.usesRd (rdField c), checkField op.usesRa (raField c), checkField op.usesRb (rbField c) with
    | some e, _, _ => some e
    | none, some e, _ => some e
    | none, none, some e => some e
    | none, none, none =>
      if op.takesLength then
        (if eField c = 0#1 ∧ elenField c ≠ 0#8 then some .lengthWithoutE else none)
      else (if eField c ≠ 0#1 ∨ elenField c ≠ 0#8 then some .unusedLength else none)

/-- A checked register field as an index 0..3 (R91). -/
def regIndex (v : BitVec 4) : Fin 4 := Fin.ofNat 4 v.toNat

/-- The command with its operands, from the fields of a word that passed the checks (R94). -/
def buildInstr (op : Op) (c : Word32) : Instr :=
  let d := regIndex (rdField c)
  let a := regIndex (raField c)
  let b := regIndex (rbField c)
  match op with
  | .tole => .tole d a
  | .fromle => .fromle d a
  | .tobew => .tobew d a
  | .rhwg => .rhwg d a
  | .hser => .hser d
  | .wswap => .wswap d a
  | .totgt => .totgt d
  | .meets => .meets a b
  | .b58dec => if eField c = 1#1 then .b58decLen d a (elenField c).toNat else .b58dec d a
  | .b58addr => .b58addr d a
  | .dhash => .dhash d a
  | .p2pkh => .p2pkh d a
  | .addrscr => .addrscr d a
  | .powh => .powh d a

/-- The decoder (R94): every 32-bit word is either exactly one command with its operands, or illegal. -/
def decodeWord (c : Word32) : Except Illegal Instr :=
  match opOfCode (opcField c).toNat with
  | none => .error .unknownOpcode
  | some op =>
    match firstIllegal op c with
    | some e => .error e
    | none => .ok (buildInstr op c)

/-! ## The encoder -/

/-- The operation of a command (R93). -/
def Instr.op : Instr → Op
  | .tole _ _ => .tole
  | .fromle _ _ => .fromle
  | .tobew _ _ => .tobew
  | .rhwg _ _ => .rhwg
  | .hser _ => .hser
  | .wswap _ _ => .wswap
  | .totgt _ => .totgt
  | .meets _ _ => .meets
  | .b58dec _ _ => .b58dec
  | .b58decLen _ _ _ => .b58dec
  | .b58addr _ _ => .b58addr
  | .dhash _ _ => .dhash
  | .p2pkh _ _ => .p2pkh
  | .addrscr _ _ => .addrscr
  | .powh _ _ => .powh

/-- The value of the RD field: the destination index, 0 where unused (R93). -/
def Instr.rd : Instr → Nat
  | .tole d _ | .fromle d _ | .tobew d _ | .rhwg d _ | .hser d | .wswap d _ | .totgt d | .b58dec d _
  | .b58decLen d _ _ | .b58addr d _ | .dhash d _ | .p2pkh d _ | .addrscr d _ | .powh d _ => d.val
  | .meets _ _ => 0

/-- The value of the RA field: the first source index, 0 where unused (R93). -/
def Instr.ra : Instr → Nat
  | .tole _ a | .fromle _ a | .tobew _ a | .rhwg _ a | .wswap _ a | .meets a _ | .b58dec _ a
  | .b58decLen _ a _ | .b58addr _ a | .dhash _ a | .p2pkh _ a | .addrscr _ a | .powh _ a => a.val
  | .hser _ | .totgt _ => 0

/-- The value of the RB field: the second source index of `MEETS`, 0 elsewhere (R93). -/
def Instr.rb : Instr → Nat
  | .meets _ b => b.val
  | .tole _ _ | .fromle _ _ | .tobew _ _ | .rhwg _ _ | .hser _ | .wswap _ _ | .totgt _ | .b58dec _ _
  | .b58decLen _ _ _ | .b58addr _ _ | .dhash _ _ | .p2pkh _ _ | .addrscr _ _ | .powh _ _ => 0

/-- The value of the E field: 1 where an expected length is present (R92). -/
def Instr.e : Instr → Nat
  | .b58decLen _ _ _ => 1
  | .tole _ _ | .fromle _ _ | .tobew _ _ | .rhwg _ _ | .hser _ | .wswap _ _ | .totgt _ | .meets _ _ | .b58dec _ _
  | .b58addr _ _ | .dhash _ _ | .p2pkh _ _ | .addrscr _ _ | .powh _ _ => 0

/-- The value of the ELEN field: the expected length where it is present, else 0 (R92). -/
def Instr.elen : Instr → Nat
  | .b58decLen _ _ n => n
  | .tole _ _ | .fromle _ _ | .tobew _ _ | .rhwg _ _ | .hser _ | .wswap _ _ | .totgt _ | .meets _ _ | .b58dec _ _
  | .b58addr _ _ | .dhash _ _ | .p2pkh _ _ | .addrscr _ _ | .powh _ _ => 0

/-- The word of a command (R101): OPC * 2^24 + RD * 2^20 + RA * 2^16 + RB * 2^12 + E * 2^8 + ELEN. -/
def encode (i : Instr) : Word32 :=
  BitVec.ofNat 32
    (i.op.code * 2 ^ 24 + i.rd * 2 ^ 20 + i.ra * 2 ^ 16 + i.rb * 2 ^ 12 + i.e * 2 ^ 8 + i.elen)

/-! ## The opcode table -/

/-- One row of spec/opcode_table.json: a word c spells the row's command exactly when c AND mask = match (R101). -/
structure TableRow where
  mnemonic : String
  pattern : Word32
  mask : Word32
  deriving DecidableEq, Repr

/-- The row of spec/opcode_table.json that a command belongs to. -/
def Instr.row : Instr → TableRow
  | .tole _ _ => ⟨"TOLE", 0x10000000#32, 0xFFCCFFFF#32⟩
  | .fromle _ _ => ⟨"FROMLE", 0x11000000#32, 0xFFCCFFFF#32⟩
  | .tobew _ _ => ⟨"TOBEW", 0x12000000#32, 0xFFCCFFFF#32⟩
  | .rhwg _ _ => ⟨"RHWG", 0x13000000#32, 0xFFCCFFFF#32⟩
  | .hser _ => ⟨"HSER", 0x20000000#32, 0xFFCFFFFF#32⟩
  | .wswap _ _ => ⟨"WSWAP", 0x21000000#32, 0xFFCCFFFF#32⟩
  | .totgt _ => ⟨"TOTGT", 0x30000000#32, 0xFFCFFFFF#32⟩
  | .meets _ _ => ⟨"MEETS", 0x31000000#32, 0xFFFCCFFF#32⟩
  | .b58dec _ _ => ⟨"B58DEC", 0x40000000#32, 0xFFCCFFFF#32⟩
  | .b58decLen _ _ _ => ⟨"B58DEC", 0x40000100#32, 0xFFCCFF00#32⟩
  | .b58addr _ _ => ⟨"B58ADDR", 0x41000000#32, 0xFFCCFFFF#32⟩
  | .dhash _ _ => ⟨"DHASH", 0x42000000#32, 0xFFCCFFFF#32⟩
  | .p2pkh _ _ => ⟨"P2PKH", 0x50000000#32, 0xFFCCFFFF#32⟩
  | .addrscr _ _ => ⟨"ADDRSCR", 0x51000000#32, 0xFFCCFFFF#32⟩
  | .powh _ _ => ⟨"POWH", 0x60000000#32, 0xFFCCFFFF#32⟩

/-- The instruction the decoder reads from an instruction whose bits are w, numbered as spec/opcode_table.json numbers
them. Every command is one 32-bit word (R90, R97), so the first word is the whole instruction. -/
def decodeTableWord (nbits w : Nat) : Option Instr :=
  let bits := w % 2 ^ nbits
  if bits < 2 ^ 32 then (decodeWord (BitVec.ofNat 32 bits)).toOption else none

end Sys2Proof
end

