-- ==== Sys2Proof/Machine/Bytes.lean ====
section
/-! DEFINITION. The byte-string notation of spec/00_scope.md R9: integer/byte conversions, slices, and rearrangements of
a string by a rule on positions. -/

namespace Sys2Proof.Machine

/-- `be(n, v)`: the n bytes of v, most significant first (R9). -/
def be (n v : Nat) : Bytes := (List.range n).map fun i => BitVec.ofNat 8 (v / 2 ^ (8 * (n - 1 - i)))

/-- `le(n, v)`: the n bytes of v, least significant first (R9). -/
def le (n v : Nat) : Bytes := (List.range n).map fun i => BitVec.ofNat 8 (v / 2 ^ (8 * i))

/-- `beval(b)`: the number b spells, first byte most significant (R9). -/
def beval (b : Bytes) : Nat := b.foldl (fun acc x => acc * 256 + x.toNat) 0

/-- `leval(b)`: the number b spells, first byte least significant (R9). -/
def leval (b : Bytes) : Nat := b.foldr (fun x acc => x.toNat + 256 * acc) 0

/-- `rep(x, n)`: the byte x repeated n times (R9). -/
def rep (x : Byte) (n : Nat) : Bytes := List.replicate n x

/-- `slice(b, i, n)`: the n bytes of b from index i on (R9). -/
def slice (b : Bytes) (i n : Nat) : Bytes := (b.drop i).take n

/-- `first(n, b)` = `slice(b, 0, n)` (R9). -/
def first (n : Nat) (b : Bytes) : Bytes := slice b 0 n

/-- The n-byte string whose byte at index p is the byte of b at index f p: how R123 and R142 rearrange a string. -/
def rearrange (n : Nat) (f : Nat → Nat) (b : Bytes) : Bytes := (List.range n).map fun p => b.getD (f p) 0#8

/-- A byte string as a string of exactly n bytes, where it has that length (R62: the fixed-length registers). -/
def toFixed (n : Nat) (b : Bytes) : Option (Vector Byte n) :=
  if h : b.length = n then some ⟨b.toArray, by simpa using h⟩ else none

end Sys2Proof.Machine
end

