-- ==== Sys2Proof/Config.lean ====
section
/-! DEFINITION. The parameters of the core, which never change during a run (spec/00_scope.md R8, spec/10_state.md R29):
the record of them that the step function takes, and the values the machine behind Host/Core.lean is built with. -/

namespace Sys2Proof

/-- The parameters of a core (R8): "parameters of the model's step function" (R29), with their constraints.
`BUS_BINDING` is none, since "no rule depends on it" (R8). `NU`, `NS` and `DIFF_W` are fixed and stand in the types. -/
structure Params where
  /-- `CAP` (R8, R22): the capacity in bytes of each byte-string register -/
  cap : Nat
  cap_ge : 80 ≤ cap
  cap_le : cap ≤ 255
  /-- `MAX_TARGET` (R160): the target of difficulty 1 -/
  maxTarget : Uint256
  maxTarget_pos : 0 < maxTarget.toNat
  /-- `SHA256` (R235); it is called on strings of at most CAP bytes only -/
  sha256 : Bytes → Vector Byte 32
  /-- `POW_HASH` (R220) -/
  powHash : Vector Byte 80 → Vector Byte 32

/-! The values of the machine behind Host/Core.lean. The one of `SHA256` stands in Machine/Sha256.lean. -/

/-- `CAP` (R8, R22): the capacity in bytes of each byte-string register, 80 ≤ CAP ≤ 255, default 128.
DESIGN CHOICE, unsafe (log 5): the machine takes the default; `Params` leaves it open. -/
def Config.cap : Nat := 128

/-- `MAX_TARGET` (R160): the target of difficulty 1; a parameter whose default is 0xFFFF * 2^224.
DESIGN CHOICE, unsafe (log 6): the machine takes the default; `Params` leaves it open. -/
def Config.maxTarget : Uint256 := BitVec.ofNat 256 (0xFFFF * 2 ^ 224)

/-- `POW_HASH` (R220): a total function from 80-byte strings to 32-byte strings about which nothing is known.
A free value, safe (log 8): "A model must therefore not define `POW_HASH`". -/
opaque Config.powHash : Vector Byte 80 → Vector Byte 32

end Sys2Proof
end

