-- ==== Sys2Proof/Machine/State.lean ====
section
/-! DEFINITION. The state of the core (spec/10_state.md R20 to R31), the host's side of its port
(spec/20_memory.md R61, R62), the reasons a step can stop, and the state after reset. -/

namespace Sys2Proof.Machine

/-- The nine values of `STATUS.ERR` (R250). "Values 0x09..0xFF never appear in `STATUS.ERR`." -/
inductive ErrCode
  /-- 0x00: the most recent command completed; also the reset value -/
  | ok
  /-- 0x01 -/
  | lengthError
  /-- 0x02 -/
  | formatError
  /-- 0x03 -/
  | lengthMismatchError
  /-- 0x04 -/
  | checksumError
  /-- 0x05 -/
  | invalidAddressError
  /-- 0x06 -/
  | rangeError
  /-- 0x07 -/
  | badDigit
  /-- 0x08 -/
  | illegalCommand
  deriving DecidableEq, Repr

/-- The failures of the functions and of decoding (R250), each with the code of its name. -/
inductive CmdError
  | lengthError
  | formatError
  | lengthMismatchError
  | checksumError
  | invalidAddressError
  | rangeError
  | badDigit
  | illegalCommand
  deriving DecidableEq, Repr

/-- The fields of `STATUS` (R25); its other bits are not stored and read as 0 (`statusWord` assembles the 32 bits). -/
structure Status where
  /-- `STATUS.ERR`, bits [7:0]: the outcome of the most recent command -/
  err : ErrCode
  /-- `STATUS.FLAG`, bit [8]: the outcome of the most recent successful `MEETS` -/
  flag : Bool
  /-- `STATUS.AVER`, bits [23:16]: the version byte of the most recent successful `B58ADDR` -/
  aver : Byte
  deriving DecidableEq, Repr

/-- A register file of four registers (R21, R22: `NU = NS = 4`). -/
structure Bank (α : Type) where
  r0 : α
  r1 : α
  r2 : α
  r3 : α
  deriving DecidableEq, Repr

/-- The architectural state of one instance of the core: "exactly the following, and nothing else" (R20).
`CMD` holds nothing (R26) and so is no field. -/
structure Regs where
  /-- `u0..u3` (R21) -/
  u : Bank Uint256
  /-- `s0..s3` (R22): each a byte string of length 0..CAP -/
  s : Bank Bytes
  /-- `HVERSION` (R23): the two's-complement pattern of the version -/
  hversion : BitVec 32
  /-- `HPREV` (R23) -/
  hprev : Vector Byte 32
  /-- `HMERKLE` (R23) -/
  hmerkle : Uint256
  /-- `HTIME` (R23) -/
  htime : Vector Byte 4
  /-- `HBITS` (R23) -/
  hbits : BitVec 32
  /-- `HNONCE` (R23) -/
  hnonce : Vector Byte 4
  /-- `DIFF` (R24) -/
  diff : BitVec 64
  /-- `STATUS` (R25) -/
  status : Status
  deriving DecidableEq, Repr

/-- A value the host transfers: a number for an integer register, a byte string for a byte-string one (R61, R64). -/
inductive RegValue
  | num (n : Nat)
  | bytes (b : Bytes)
  deriving DecidableEq, Repr

/-- The four host actions (R61). A register is named by its number (R30). -/
inductive HostAction
  /-- `HostRead(R)` -/
  | read (reg : Nat)
  /-- `HostWrite(R, v)` -/
  | write (reg : Nat) (v : RegValue)
  /-- `HostIssue(c)` -/
  | issue (c : Word32)
  /-- `Reset` -/
  | reset
  deriving DecidableEq, Repr

/-- The state a step works on: the registers of R20, and the host's side of the port, which is the model's own
(R29: the sequence of commands "belongs to the host"). DESIGN CHOICE (log 1, log 2). -/
structure State where
  /-- The registers of the core (R20) -/
  regs : Regs
  /-- The actions the host is going to take, next first (log 1) -/
  hostQueue : List HostAction
  /-- What the most recent `HostRead` returned to the host (log 2) -/
  lastRead : Option RegValue
  deriving DecidableEq, Repr

/-- A step that stops with a fault. There is none, and the type is empty: the core has no traps (R255), "never aborts,
halts or locks up" (R251), and "from every state, every legal host action is possible" (R256). Raised by nobody; safe
for the device of this spec, and unsafe for one that aborts on a bad length (log 9). -/
inductive Fault
  deriving DecidableEq, Repr

/-- What the model gives no step (R62: such accesses "are refused, not faulted"), and the host's name for an instruction
without a meaning. -/
inductive Refusal
  /-- Raised by an arm of `exec` for an instruction without a meaning; no arm does. Safe. -/
  | notModelled (mnemonic : String)
  /-- Raised by a host read or write of a register number that R30 does not list (R62). Safe. -/
  | noSuchRegister (reg : Nat)
  /-- Raised by a host read of `CMD`: "there is no `HostRead(CMD)` action" (R26, R62). Safe. -/
  | notReadable (reg : Nat)
  /-- Raised by a host write of `STATUS` (R25, R62). Safe. -/
  | notWritable (reg : Nat)
  /-- Raised by a host write whose value is not of the register's type (R62). Safe. -/
  | illTyped (reg : Nat)
  deriving DecidableEq, Repr

/-- Every register at its value after reset (R31): "Nothing is left unspecified". -/
def Regs.reset : Regs where
  u := ⟨0#256, 0#256, 0#256, 0#256⟩
  s := ⟨[], [], [], []⟩
  hversion := 0#32
  hprev := Vector.replicate 32 0#8
  hmerkle := 0#256
  htime := Vector.replicate 4 0#8
  hbits := 0#32
  hnonce := Vector.replicate 4 0#8
  diff := 0#64
  status := ⟨.ok, false, 0#8⟩

/-- The machine right after reset (R31), with no host action pending and nothing read yet (DESIGN CHOICE, log 1, log 2). -/
def State.reset : State where
  regs := Regs.reset
  hostQueue := []
  lastRead := none

end Sys2Proof.Machine
end

