-- ==== Sys2Proof/Machine/Flags.lean ====
section
/-! DEFINITION. The status register: its fields written one at a time, the numbers of the error codes, and the 32-bit
word the host reads (spec/10_state.md R25, R34; spec/60_exceptions.md R250). -/

namespace Sys2Proof.Machine

/-- The number of an error code (R250). -/
def ErrCode.toByte : ErrCode → Byte
  | .ok => 0x00#8
  | .lengthError => 0x01#8
  | .formatError => 0x02#8
  | .lengthMismatchError => 0x03#8
  | .checksumError => 0x04#8
  | .invalidAddressError => 0x05#8
  | .rangeError => 0x06#8
  | .badDigit => 0x07#8
  | .illegalCommand => 0x08#8

/-- The code of a failure (R250). -/
def CmdError.code : CmdError → ErrCode
  | .lengthError => .lengthError
  | .formatError => .formatError
  | .lengthMismatchError => .lengthMismatchError
  | .checksumError => .checksumError
  | .invalidAddressError => .invalidAddressError
  | .rangeError => .rangeError
  | .badDigit => .badDigit
  | .illegalCommand => .illegalCommand

/-- `STATUS.ERR <- c` -/
def State.setErr (s : State) (c : ErrCode) : State :=
  { s with regs := { s.regs with status := { s.regs.status with err := c } } }

/-- `STATUS.FLAG <- f` -/
def State.setFlag (s : State) (f : Bool) : State :=
  { s with regs := { s.regs with status := { s.regs.status with flag := f } } }

/-- `STATUS.AVER <- v` -/
def State.setAver (s : State) (v : Byte) : State :=
  { s with regs := { s.regs with status := { s.regs.status with aver := v } } }

/-- The 32-bit value of `STATUS`, assembled from its fields (R25, R61): zero [31:24], AVER [23:16], zero [15:9],
FLAG [8], ERR [7:0]. -/
def statusWord (st : Status) : Word32 :=
  BitVec.ofNat 32 (st.aver.toNat * 2 ^ 16 + st.flag.toNat * 2 ^ 8 + st.err.toByte.toNat)

end Sys2Proof.Machine
end

