-- ==== Sys2Proof/Machine/Operands.lean ====
section
/-! DEFINITION. The operand forms: reading and writing a register of the `u` or the `s` file by its index
(spec/30_encoding.md R91; spec/10_state.md R21, R22: no register is hardwired or aliased). -/

namespace Sys2Proof.Machine

/-- The register of a file that an index names. -/
def Bank.get {α : Type} (b : Bank α) (i : Fin 4) : α :=
  match i with
  | 0 => b.r0
  | 1 => b.r1
  | 2 => b.r2
  | 3 => b.r3

/-- A file with the register an index names replaced, whole (R68). -/
def Bank.set {α : Type} (b : Bank α) (i : Fin 4) (v : α) : Bank α :=
  match i with
  | 0 => { b with r0 := v }
  | 1 => { b with r1 := v }
  | 2 => { b with r2 := v }
  | 3 => { b with r3 := v }

/-- `u[i]` (R9). -/
def State.readU (s : State) (i : UIdx) : Uint256 := s.regs.u.get i

/-- `s[i]` (R9). -/
def State.readS (s : State) (i : SIdx) : Bytes := s.regs.s.get i

/-- `u[i] <- v` (R9). -/
def State.writeU (s : State) (i : UIdx) (v : Uint256) : State :=
  { s with regs := { s.regs with u := s.regs.u.set i v } }

/-- `s[i] <- b`, content and length replaced (R9, R22). -/
def State.writeS (s : State) (i : SIdx) (b : Bytes) : State :=
  { s with regs := { s.regs with s := s.regs.s.set i b } }

end Sys2Proof.Machine
end

