-- ==== Sys2Proof/Machine/Ops.lean ====
section
/-! DEFINITION. The named operations every command shares: how a failure is reported and how a command completes
(spec/60_exceptions.md R251, spec/30_encoding.md R103). The core has no trap: the whole effect of an error is `raise`
(R255), and nothing is returned from (R256). -/

namespace Sys2Proof.Machine

/-- What a step of the core answers. -/
abbrev Result := Host.Outcome State Fault Refusal

/-- `raise e` (R9, R251): `STATUS.ERR` takes the code of e, and nothing else is written. -/
def raise (e : CmdError) (s : State) : State := s.setErr e.code

/-- The end of a command that succeeded: `STATUS.ERR <- 0` (R251). -/
def succeed (s : State) : State := s.setErr .ok

/-- A command whose function yields a Uint256 for `u[d]`, or a failure. -/
def completeU (d : UIdx) (r : Except CmdError Uint256) (s : State) : Result :=
  match r with
  | .ok v => .next (succeed (s.writeU d v))
  | .error e => .next (raise e s)

/-- A command whose function yields a byte string for `s[d]`, or a failure. -/
def completeS (d : SIdx) (r : Except CmdError Bytes) (s : State) : Result :=
  match r with
  | .ok b => .next (succeed (s.writeS d b))
  | .error e => .next (raise e s)

/-- A command whose function yields a truth value for `STATUS.FLAG` (`MEETS`, R164). -/
def completeFlag (f : Bool) (s : State) : Result := .next (succeed (s.setFlag f))

/-- A command whose function yields a version for `STATUS.AVER` and a payload for `s[d]`, or a failure (`B58ADDR`, R189). -/
def completeAddr (d : SIdx) (r : Except CmdError (Byte × Bytes)) (s : State) : Result :=
  match r with
  | .ok (version, payload) => .next (succeed ((s.writeS d payload).setAver version))
  | .error e => .next (raise e s)

end Sys2Proof.Machine
end

