-- ==== Sys2Proof/Machine/Sha256.lean ====
section
/-! DEFINITION. The reference function SHA256 (spec/46_sha256_reference.md R236 to R239), the default value of the
parameter `SHA256`. PRESUMED by the spec itself ("from general knowledge, not in source"); log 7. -/

namespace Sys2Proof.Machine

/-- `pad(m)` (R236): m, the byte 80, z zero bytes with z = (55 - L) mod 64 (which is (55 + 63 L) mod 64), and the length in bits as 8 bytes. -/
def shaPad (m : Bytes) : Bytes :=
  m ++ [0x80#8] ++ rep 0#8 ((55 + 63 * m.length) % 64) ++ be 8 (8 * m.length)

/-- The eight words of a hash value, H0..H7 or a..h (R238). -/
structure ShaWords where
  a : Word32
  b : Word32
  c : Word32
  d : Word32
  e : Word32
  f : Word32
  g : Word32
  h : Word32
  deriving DecidableEq, Repr

/-- The initial hash value (R238). -/
def shaInit : ShaWords :=
  ⟨0x6a09e667#32, 0xbb67ae85#32, 0x3c6ef372#32, 0xa54ff53a#32, 0x510e527f#32, 0x9b05688c#32, 0x1f83d9ab#32, 0x5be0cd19#32⟩

/-- The sixty-four round constants K[0..63], row by row (R238). -/
def shaK : List Word32 :=
  [0x428a2f98#32, 0x71374491#32, 0xb5c0fbcf#32, 0xe9b5dba5#32, 0x3956c25b#32, 0x59f111f1#32, 0x923f82a4#32, 0xab1c5ed5#32] ++
  [0xd807aa98#32, 0x12835b01#32, 0x243185be#32, 0x550c7dc3#32, 0x72be5d74#32, 0x80deb1fe#32, 0x9bdc06a7#32, 0xc19bf174#32] ++
  [0xe49b69c1#32, 0xefbe4786#32, 0x0fc19dc6#32, 0x240ca1cc#32, 0x2de92c6f#32, 0x4a7484aa#32, 0x5cb0a9dc#32, 0x76f988da#32] ++
  [0x983e5152#32, 0xa831c66d#32, 0xb00327c8#32, 0xbf597fc7#32, 0xc6e00bf3#32, 0xd5a79147#32, 0x06ca6351#32, 0x14292967#32] ++
  [0x27b70a85#32, 0x2e1b2138#32, 0x4d2c6dfc#32, 0x53380d13#32, 0x650a7354#32, 0x766a0abb#32, 0x81c2c92e#32, 0x92722c85#32] ++
  [0xa2bfe8a1#32, 0xa81a664b#32, 0xc24b8b70#32, 0xc76c51a3#32, 0xd192e819#32, 0xd6990624#32, 0xf40e3585#32, 0x106aa070#32] ++
  [0x19a4c116#32, 0x1e376c08#32, 0x2748774c#32, 0x34b0bcb5#32, 0x391c0cb3#32, 0x4ed8aa4a#32, 0x5b9cca4f#32, 0x682e6ff3#32] ++
  [0x748f82ee#32, 0x78a5636f#32, 0x84c87814#32, 0x8cc70208#32, 0x90befffa#32, 0xa4506ceb#32, 0xbef9a3f7#32, 0xc67178f2#32]

/-- `rotr(x, n)` (R236's section): x rotated right by n places. -/
def rotr (x : Word32) (n : Nat) : Word32 := (x >>> n) ||| (x <<< (32 - n))

/-- s0 of the message schedule (R238). -/
def smallSigma0 (x : Word32) : Word32 := rotr x 7 ^^^ rotr x 18 ^^^ (x >>> 3)
/-- s1 of the message schedule (R238). -/
def smallSigma1 (x : Word32) : Word32 := rotr x 17 ^^^ rotr x 19 ^^^ (x >>> 10)
/-- S0 of the round (R238). -/
def bigSigma0 (x : Word32) : Word32 := rotr x 2 ^^^ rotr x 13 ^^^ rotr x 22
/-- S1 of the round (R238). -/
def bigSigma1 (x : Word32) : Word32 := rotr x 6 ^^^ rotr x 11 ^^^ rotr x 25
/-- Ch of the round (R238). -/
def shaCh (x y z : Word32) : Word32 := (x &&& y) ^^^ (~~~x &&& z)
/-- Maj of the round (R238). -/
def shaMaj (x y z : Word32) : Word32 := (x &&& y) ^^^ (x &&& z) ^^^ (y &&& z)

/-- W[0..15] of a block: its 4-byte slices, most significant byte first (R238). -/
def blockWords (block : Bytes) : List Word32 :=
  (List.range 16).map fun t => BitVec.ofNat 32 (beval (slice block (4 * t) 4))

/-- The next word of the schedule, from the words so far, newest first: s1(W[t-2]) + W[t-7] + s0(W[t-15]) + W[t-16] (R238). -/
def nextWord (newestFirst : List Word32) : Word32 :=
  smallSigma1 (newestFirst.getD 1 0#32) + newestFirst.getD 6 0#32 + smallSigma0 (newestFirst.getD 14 0#32)
    + newestFirst.getD 15 0#32

/-- The schedule extended by n words, newest first (R238). -/
def extendSchedule : Nat → List Word32 → List Word32
  | 0, ws => ws
  | n + 1, ws => extendSchedule n (nextWord ws :: ws)

/-- W[0..63] of a block (R238). -/
def schedule (block : Bytes) : List Word32 := (extendSchedule 48 (blockWords block).reverse).reverse

/-- One round, with the sum K[t] + W[t] (R238). -/
def shaRound (v : ShaWords) (kw : Word32) : ShaWords :=
  let t1 := v.h + bigSigma1 v.e + shaCh v.e v.f v.g + kw
  let t2 := bigSigma0 v.a + shaMaj v.a v.b v.c
  ⟨t1 + t2, v.a, v.b, v.c, v.d + t1, v.e, v.f, v.g⟩

/-- `compress` (R238): sixty-four rounds, then the sums with the value before. -/
def compress (v : ShaWords) (block : Bytes) : ShaWords :=
  let r := (List.zipWith (fun k w => k + w) shaK (schedule block)).foldl shaRound v
  ⟨v.a + r.a, v.b + r.b, v.c + r.c, v.d + r.d, v.e + r.e, v.f + r.f, v.g + r.g, v.h + r.h⟩

/-- The 64-byte blocks of a padded message, in order (R236). -/
def shaBlocks (padded : Bytes) : List Bytes := (List.range (padded.length / 64)).map fun k => slice padded (64 * k) 64

/-- The eight words after the last block (R237). -/
def shaFinal (m : Bytes) : ShaWords := (shaBlocks (shaPad m)).foldl compress shaInit

/-- The four bytes of a word, most significant first (R239). -/
def wordBytes (w : Word32) : Vector Byte 4 :=
  #v[w.extractLsb' 24 8, w.extractLsb' 16 8, w.extractLsb' 8 8, w.extractLsb' 0 8]

/-- The digest: the eight words in order, each most significant byte first (R239). -/
def shaDigest (v : ShaWords) : Vector Byte 32 :=
  wordBytes v.a ++ wordBytes v.b ++ wordBytes v.c ++ wordBytes v.d ++ wordBytes v.e ++ wordBytes v.f ++ wordBytes v.g
    ++ wordBytes v.h

/-- The reference function `SHA256` (R237). -/
def sha256Reference (m : Bytes) : Vector Byte 32 := shaDigest (shaFinal m)

end Sys2Proof.Machine
end

