-- ==== Sys2Proof/Machine/HashPorts.lean ====
section
/-! DEFINITION. The two oracle ports (spec/20_memory.md R74): external pure functions, evaluated in place; and the
parameters of the machine behind Host/Core.lean. -/

namespace Sys2Proof.Machine

/-- What an instantiation of the parameter `SHA256` is: a total function from byte strings to 32-byte strings (R235). -/
abbrev HashFn := Bytes → Vector Byte 32

/-- The SHA-256 port of the machine. DESIGN CHOICE, unsafe (log 7): the default, the reference function of R237. -/
def sha256Port : HashFn := sha256Reference

/-- The PoW-hash port of the machine: the free value `POW_HASH` (R220, log 8). -/
def powHashPort : Vector Byte 80 → Vector Byte 32 := Config.powHash

/-- The parameters of the machine behind Host/Core.lean: the defaults of R8, and the free `POW_HASH` (logs 5 to 8). -/
def machineParams : Params where
  cap := Config.cap
  cap_ge := by decide
  cap_le := by decide
  maxTarget := Config.maxTarget
  maxTarget_pos := by decide
  sha256 := sha256Port
  powHash := powHashPort

end Sys2Proof.Machine
end

