-- ==== Sys2Proof/Machine/Base58Check.lean ====
section
/-! DEFINITION. Base58Check: `B58DEC`, `B58ADDR`, `DHASH` (spec/43_base58check.md). The functions take the parameter
`SHA256` as an argument, and the commands that hash take the parameters of the core (R8, R235). -/

namespace Sys2Proof.Machine

/-- The 58 characters of the alphabet, in order of value, as ASCII bytes (R180). -/
def alphabet : Bytes :=
  (List.range 9).map (fun i => BitVec.ofNat 8 (0x31 + i)) ++ (List.range 8).map (fun i => BitVec.ofNat 8 (0x41 + i)) ++
  (List.range 5).map (fun i => BitVec.ofNat 8 (0x4a + i)) ++ (List.range 11).map (fun i => BitVec.ofNat 8 (0x50 + i)) ++
  (List.range 11).map (fun i => BitVec.ofNat 8 (0x61 + i)) ++ (List.range 14).map (fun i => BitVec.ofNat 8 (0x6d + i))

/-- `val(c)`, by the table of R181: defined on 58 byte values and on no others. -/
def digitVal (c : Byte) : Option Nat :=
  let n := c.toNat
  if 0x31 ≤ n ∧ n ≤ 0x39 then some (n - 0x31)
  else if 0x41 ≤ n ∧ n ≤ 0x48 then some (n - 0x41 + 9)
  else if 0x4a ≤ n ∧ n ≤ 0x4e then some (n - 0x4a + 17)
  else if 0x50 ≤ n ∧ n ≤ 0x5a then some (n - 0x50 + 22)
  else if 0x61 ≤ n ∧ n ≤ 0x6b then some (n - 0x61 + 33)
  else if 0x6d ≤ n ∧ n ≤ 0x7a then some (n - 0x6d + 44)
  else none

/-- The digit values of a text, or nothing if some character is not a digit (R183). -/
def digitVals : Bytes → Option (List Nat)
  | [] => some []
  | c :: cs =>
    match digitVal c, digitVals cs with
    | some v, some vs => some (v :: vs)
    | _, _ => none

/-- The number the digits spell, first digit most significant: n <- n * 58 + val, once per character (R183, R185). -/
def base58Number (vs : List Nat) : Nat := vs.foldl (fun n v => n * 58 + v) 0

/-- The number z of leading '1' characters (R183). -/
def leadingOnes (s : Bytes) : Nat := (s.takeWhile (· == 0x31#8)).length

/-- The least m with n < 256^m (R182). -/
def byteCount (n : Nat) : Nat := if n = 0 then 0 else n.log2 / 8 + 1

/-- `minbytes(n)`: the shortest byte string whose big-endian value is n; empty for 0 (R182). -/
def minbytes (n : Nat) : Bytes := be (byteCount n) n

/-- `decode(s, expectedLength)` (R183): `BadDigit` first, then `LengthMismatchError` (R253). -/
def decode (s : Bytes) (expectedLength : Option Nat) : Except CmdError Bytes :=
  match digitVals s with
  | none => .error .badDigit
  | some vs =>
    let r := rep 0x00#8 (leadingOnes s) ++ minbytes (base58Number vs)
    match expectedLength with
    | none => .ok r
    | some n => if r.length ≠ n then .error .lengthMismatchError else .ok r

/-- `doubleHash(b) = SHA256(SHA256(b))` (R186). -/
def doubleHash (sha : HashFn) (b : Bytes) : Bytes := (sha (sha b).toList).toList

/-- The version byte of 25 decoded bytes, `r[0]` (R188). -/
def addrVersion (r : Bytes) : Byte := r.getD 0 0#8
/-- The payload of 25 decoded bytes, `slice(r, 1, 20)` (R188). -/
def addrPayload (r : Bytes) : Bytes := slice r 1 20
/-- The checksum of 25 decoded bytes, `slice(r, 21, 4)` (R188). -/
def addrChecksum (r : Bytes) : Bytes := slice r 21 4

/-- `decodeAddress(addr)` (R188); the failures of `decode` propagate, then `ChecksumError` (R253). -/
def decodeAddress (sha : HashFn) (addr : Bytes) : Except CmdError (Byte × Bytes) :=
  match decode addr (some 25) with
  | .error e => .error e
  | .ok r =>
    if addrChecksum r ≠ first 4 (doubleHash sha (first 21 r)) then .error .checksumError
    else .ok (addrVersion r, addrPayload r)

/-- `B58DEC sd, sa`: E = 0, no expected length (R184). -/
def execB58dec (sd sa : SIdx) (s : State) : Result := completeS sd (decode (s.readS sa) none) s

/-- `B58DEC sd, sa, #n`: E = 1, expected length n (R184). -/
def execB58decLen (sd sa : SIdx) (n : Nat) (s : State) : Result := completeS sd (decode (s.readS sa) (some n)) s

/-- `B58ADDR sd, sa` (R189), for given parameters. -/
def execB58addrWith (p : Params) (sd sa : SIdx) (s : State) : Result :=
  completeAddr sd (decodeAddress p.sha256 (s.readS sa)) s

/-- `B58ADDR sd, sa` on the machine. -/
def execB58addr (sd sa : SIdx) (s : State) : Result := execB58addrWith machineParams sd sa s

/-- `DHASH sd, sa` (R187), for given parameters. -/
def execDhashWith (p : Params) (sd sa : SIdx) (s : State) : Result :=
  completeS sd (.ok (doubleHash p.sha256 (s.readS sa))) s

/-- `DHASH sd, sa` on the machine. -/
def execDhash (sd sa : SIdx) (s : State) : Result := execDhashWith machineParams sd sa s

end Sys2Proof.Machine
end

