-- ==== Sys2Proof/Machine/AddressScript.lean ====
section
/-! DEFINITION. AddressScript: `P2PKH`, `ADDRSCR` (spec/44_addressscript.md). -/

namespace Sys2Proof.Machine

/-- `payToPubkeyHash(pubkeyHash)`: 76 a9 14, the 20 bytes, 88 ac, or `LengthError` if it is not 20 bytes (R210). -/
def payToPubkeyHash (pubkeyHash : Bytes) : Except CmdError Bytes :=
  if pubkeyHash.length = 20 then .ok ([0x76#8, 0xA9#8, 0x14#8] ++ pubkeyHash ++ [0x88#8, 0xAC#8])
  else .error .lengthError

/-- `buildFromAddress(addr)`: every failure of the decoding becomes `InvalidAddressError`; the version is discarded (R212). -/
def buildFromAddress (sha : HashFn) (addr : Bytes) : Except CmdError Bytes :=
  match decodeAddress sha addr with
  | .error _ => .error .invalidAddressError
  | .ok (_, payload) => payToPubkeyHash payload

/-- `P2PKH sd, sa` (R211). -/
def execP2pkh (sd sa : SIdx) (s : State) : Result := completeS sd (payToPubkeyHash (s.readS sa)) s

/-- `ADDRSCR sd, sa` (R213), for given parameters: `STATUS.AVER` is not written, even on success. -/
def execAddrscrWith (p : Params) (sd sa : SIdx) (s : State) : Result :=
  completeS sd (buildFromAddress p.sha256 (s.readS sa)) s

/-- `ADDRSCR sd, sa` on the machine. -/
def execAddrscr (sd sa : SIdx) (s : State) : Result := execAddrscrWith machineParams sd sa s

end Sys2Proof.Machine
end

