-- ==== Sys2Proof/Machine/DifficultyTarget.lean ====
section
/-! DEFINITION. DifficultyTarget: `TOTGT`, `MEETS` (spec/42_difficultytarget.md). -/

namespace Sys2Proof.Machine

/-- `toTarget(d)` for a given `MAX_TARGET`: the floor quotient on mathematical integers, or `RangeError` if d < 1
(R161, R168). -/
def toTarget (maxTarget : Uint256) (d : Nat) : Except CmdError Uint256 :=
  if d < 1 then .error .rangeError else .ok (BitVec.ofNat 256 (maxTarget.toNat / d))

/-- `meetsTarget(hash, target)`: `hash ≤ target`, unsigned on all 256 bits (R163). -/
def meetsTarget (hash target : Uint256) : Bool := decide (hash.toNat ≤ target.toNat)

/-- `TOTGT ud` (R162), for given parameters. -/
def execTotgtWith (p : Params) (ud : UIdx) (s : State) : Result := completeU ud (toTarget p.maxTarget s.regs.diff.toNat) s

/-- `TOTGT ud` on the machine. -/
def execTotgt (ud : UIdx) (s : State) : Result := execTotgtWith machineParams ud s

/-- `MEETS ua, ub`: hash first, target second (R164). -/
def execMeets (ua ub : UIdx) (s : State) : Result := completeFlag (meetsTarget (s.readU ua) (s.readU ub)) s

end Sys2Proof.Machine
end

