-- ==== Sys2Proof/Machine/HashOracle.lean ====
section
/-! DEFINITION. HashOracle: `POWH` (spec/45_hashoracle.md). -/

namespace Sys2Proof.Machine

/-- The request of the PoW-hash port: exactly 80 bytes are sent, and any other length is a `LengthError` before the
oracle is called (R222). -/
def powHash (pow : Vector Byte 80 → Vector Byte 32) (b : Bytes) : Except CmdError Bytes :=
  match toFixed 80 b with
  | none => .error .lengthError
  | some h => .ok (pow h).toList

/-- `POWH sd, sa` (R222), for given parameters. -/
def execPowhWith (p : Params) (sd sa : SIdx) (s : State) : Result := completeS sd (powHash p.powHash (s.readS sa)) s

/-- `POWH sd, sa` on the machine. -/
def execPowh (sd sa : SIdx) (s : State) : Result := execPowhWith machineParams sd sa s

end Sys2Proof.Machine
end

