-- ==== Sys2Proof/Machine/UintCodec.lean ====
section
/-! DEFINITION. UintCodec: `TOLE`, `FROMLE`, `TOBEW`, `RHWG` (spec/40_uintcodec.md). -/

namespace Sys2Proof.Machine

/-- `toBytesLE(u)`: byte i is `u[8i+7 : 8i]` (R120). -/
def toBytesLE (u : Uint256) : Bytes := (List.range 32).map fun i => u.extractLsb' (8 * i) 8

/-- `fromBytesLE(b)`: the sum of `b[i] * 256^i`, or `LengthError` if b is not 32 bytes (R121). -/
def fromBytesLE (b : Bytes) : Except CmdError Uint256 :=
  if b.length = 32 then .ok (BitVec.ofNat 256 (leval b)) else .error .lengthError

/-- `toBytesBE_wordwise(u)`: byte 4k+j is `u[32k + 8(3-j) + 7 : 32k + 8(3-j)]`, words least significant first and the
bytes of a word most significant first (R122). -/
def toBytesBEWordwise (u : Uint256) : Bytes :=
  (List.range 32).map fun p => u.extractLsb' (32 * (p / 4) + 8 * (3 - p % 4)) 8

/-- `reverseHexWordGroups(h)`: `r[8k + j] = h[8(7-k) + j]`, or `FormatError` if h is not 64 characters (R123). -/
def reverseHexWordGroups (h : Bytes) : Except CmdError Bytes :=
  if h.length = 64 then .ok (rearrange 64 (fun p => 8 * (7 - p / 8) + p % 8) h) else .error .formatError

/-- `TOLE sd, ua` (R124). -/
def execTole (sd : SIdx) (ua : UIdx) (s : State) : Result := completeS sd (.ok (toBytesLE (s.readU ua))) s

/-- `FROMLE ud, sa` (R125). -/
def execFromle (ud : UIdx) (sa : SIdx) (s : State) : Result := completeU ud (fromBytesLE (s.readS sa)) s

/-- `TOBEW sd, ua` (R126). -/
def execTobew (sd : SIdx) (ua : UIdx) (s : State) : Result := completeS sd (.ok (toBytesBEWordwise (s.readU ua))) s

/-- `RHWG sd, sa` (R127). -/
def execRhwg (sd sa : SIdx) (s : State) : Result := completeS sd (reverseHexWordGroups (s.readS sa)) s

end Sys2Proof.Machine
end

