-- ==== Sys2Proof/Machine/HeaderSerializer.lean ====
section
/-! DEFINITION. HeaderSerializer: `HSER`, `WSWAP` (spec/41_headerserializer.md). -/

namespace Sys2Proof.Machine

/-- `serialize(...)`: the six fields in their fixed order, 80 bytes; version and bits big-endian, the merkle root
word-wise, the other three unchanged (R140, R146). -/
def serialize (version : BitVec 32) (previousHashBytes : Vector Byte 32) (merkleRoot : Uint256)
    (time : Vector Byte 4) (bits : BitVec 32) (nonce : Vector Byte 4) : Bytes :=
  be 4 version.toNat ++ previousHashBytes.toList ++ toBytesBEWordwise merkleRoot ++ time.toList ++ be 4 bits.toNat
    ++ nonce.toList

/-- `serialize` of the six header-field registers (R141). -/
def serializeRegs (r : Regs) : Bytes := serialize r.hversion r.hprev r.hmerkle r.htime r.hbits r.hnonce

/-- The position the byte at position p of a chunk-swapped string comes from: chunk order kept, the 4 bytes of a chunk
reversed, `w[4c + j] = h[4c + (3 - j)]` (R142). -/
def chunkSource (p : Nat) : Nat := 4 * (p / 4) + (3 - p % 4)

/-- `chunkswap4(b)`: the chunk swap of a string whose length is a multiple of 4 (R130). -/
def chunkswap4 (b : Bytes) : Bytes := rearrange b.length chunkSource b

/-- `chunkswap80(h)`, or `LengthError` if h is not 80 bytes (R142). -/
def chunkswap80 (h : Bytes) : Except CmdError Bytes :=
  if h.length = 80 then .ok (chunkswap4 h) else .error .lengthError

/-- `HSER sd` (R141). -/
def execHser (sd : SIdx) (s : State) : Result := completeS sd (.ok (serializeRegs s.regs)) s

/-- `WSWAP sd, sa` (R143). -/
def execWswap (sd sa : SIdx) (s : State) : Result := completeS sd (chunkswap80 (s.readS sa)) s

end Sys2Proof.Machine
end

