-- ==== Sys2Proof/Machine/Dispatch.lean ====
section
/-! DEFINITION. The one dispatch from commands to their meanings. -/

namespace Sys2Proof.Machine

def exec (i : Instr) (s : State) : Host.Outcome State Fault Refusal :=
  match i with
  -- UintCodec
  | .tole sd ua => Sys2Proof.Machine.execTole sd ua s
  | .fromle ud sa => Sys2Proof.Machine.execFromle ud sa s
  | .tobew sd ua => Sys2Proof.Machine.execTobew sd ua s
  | .rhwg sd sa => Sys2Proof.Machine.execRhwg sd sa s
  -- HeaderSerializer
  | .hser sd => Sys2Proof.Machine.execHser sd s
  | .wswap sd sa => Sys2Proof.Machine.execWswap sd sa s
  -- DifficultyTarget
  | .totgt ud => Sys2Proof.Machine.execTotgt ud s
  | .meets ua ub => Sys2Proof.Machine.execMeets ua ub s
  -- Base58Check
  | .b58dec sd sa => Sys2Proof.Machine.execB58dec sd sa s
  | .b58decLen sd sa n => Sys2Proof.Machine.execB58decLen sd sa n s
  | .b58addr sd sa => Sys2Proof.Machine.execB58addr sd sa s
  | .dhash sd sa => Sys2Proof.Machine.execDhash sd sa s
  -- AddressScript
  | .p2pkh sd sa => Sys2Proof.Machine.execP2pkh sd sa s
  | .addrscr sd sa => Sys2Proof.Machine.execAddrscr sd sa s
  -- HashOracle
  | .powh sd sa => Sys2Proof.Machine.execPowh sd sa s

end Sys2Proof.Machine
end

