-- ==== Sys2Proof/Machine/HostPort.lean ====
section
/-! DEFINITION. The host port: the register numbers of spec/10_state.md R30 and the four host actions of
spec/20_memory.md R61, with the type constraints of R62. They are written once for a given CAP and a given way to execute a
command (R8); the machine's own take `Config.cap` and `exec`, and Machine/Parametric.lean takes any parameters. -/

namespace Sys2Proof.Machine

/-- The registers the host can name (R30). -/
inductive RegName
  | u (i : UIdx)
  | s (i : SIdx)
  | hversion
  | hprev
  | hmerkle
  | htime
  | hbits
  | hnonce
  | diff
  | status
  | cmd
  deriving DecidableEq, Repr

/-- The number of a register (R30). -/
def RegName.number : RegName → Nat
  | .u i => 0x00 + i.val
  | .s i => 0x10 + i.val
  | .hversion => 0x20
  | .hprev => 0x21
  | .hmerkle => 0x22
  | .htime => 0x23
  | .hbits => 0x24
  | .hnonce => 0x25
  | .diff => 0x30
  | .status => 0x40
  | .cmd => 0x50

/-- The register table of R30. -/
def RegName.all : List RegName :=
  [.u 0, .u 1, .u 2, .u 3, .s 0, .s 1, .s 2, .s 3, .hversion, .hprev, .hmerkle, .htime, .hbits, .hnonce, .diff, .status, .cmd]

/-- The register a number names; "every other register number names nothing" (R30). -/
def regOfNumber (n : Nat) : Option RegName := RegName.all.find? fun r => r.number == n

/-- The value of a register as the host reads it: whole, of the register's type (R61, R68); `CMD` cannot be read (R26). -/
def readReg (r : RegName) (g : Regs) : Option RegValue :=
  match r with
  | .u i => some (.num (g.u.get i).toNat)
  | .s i => some (.bytes (g.s.get i))
  | .hversion => some (.num g.hversion.toNat)
  | .hprev => some (.bytes g.hprev.toList)
  | .hmerkle => some (.num g.hmerkle.toNat)
  | .htime => some (.bytes g.htime.toList)
  | .hbits => some (.num g.hbits.toNat)
  | .hnonce => some (.bytes g.hnonce.toList)
  | .diff => some (.num g.diff.toNat)
  | .status => some (.num (statusWord g.status).toNat)
  | .cmd => none

/-- A host value as a number of width w, where it is one (R62). -/
def asNumber (w : Nat) (v : RegValue) : Option (BitVec w) :=
  match v with
  | .num n => if n < 2 ^ w then some (BitVec.ofNat w n) else none
  | .bytes _ => none

/-- A host value as a string of exactly n bytes, where it is one (R62). -/
def asFixed (n : Nat) (v : RegValue) : Option (Vector Byte n) :=
  match v with
  | .num _ => none
  | .bytes b => toFixed n b

/-- A host value as a byte string of at most CAP bytes, where it is one (R62). -/
def asBytes (cap : Nat) (v : RegValue) : Option Bytes :=
  match v with
  | .num _ => none
  | .bytes b => if b.length ≤ cap then some b else none

/-- The registers after `R <- v`, for a register that stores what the host writes and a value of its type (R61, R62);
nothing for `STATUS` and `CMD`. -/
def writeReg (cap : Nat) (r : RegName) (v : RegValue) (g : Regs) : Option Regs :=
  match r with
  | .u i => (asNumber 256 v).map fun x => { g with u := g.u.set i x }
  | .s i => (asBytes cap v).map fun b => { g with s := g.s.set i b }
  | .hversion => (asNumber 32 v).map fun x => { g with hversion := x }
  | .hprev => (asFixed 32 v).map fun b => { g with hprev := b }
  | .hmerkle => (asNumber 256 v).map fun x => { g with hmerkle := x }
  | .htime => (asFixed 4 v).map fun b => { g with htime := b }
  | .hbits => (asNumber 32 v).map fun x => { g with hbits := x }
  | .hnonce => (asFixed 4 v).map fun b => { g with hnonce := b }
  | .diff => (asNumber 64 v).map fun x => { g with diff := x }
  | .status => none
  | .cmd => none

/-- `HostIssue(c)` (R26, R61): the command the word spells runs to completion, and an illegal word raises
`IllegalCommand` (R94). -/
def hostIssueBy (run : Instr → State → Result) (c : Word32) (s : State) : Result :=
  match decodeWord c with
  | .ok i => run i s
  | .error _ => .next (raise .illegalCommand s)

/-- `HostRead(R)` (R61): the value is returned to the host, and no register changes (R69). -/
def hostRead (n : Nat) (s : State) : Result :=
  match regOfNumber n with
  | none => .refused (.noSuchRegister n)
  | some r =>
    match readReg r s.regs with
    | none => .refused (.notReadable n)
    | some v => .next { s with lastRead := some v }

/-- `HostWrite(R, v)` (R61): `R <- v` and nothing else; a write of `CMD` issues the word (R26), a write of `STATUS` and a
value of the wrong type are not host actions (R62). -/
def hostWriteBy (cap : Nat) (run : Instr → State → Result) (n : Nat) (v : RegValue) (s : State) : Result :=
  match regOfNumber n with
  | none => .refused (.noSuchRegister n)
  | some .status => .refused (.notWritable n)
  | some .cmd =>
    match asNumber 32 v with
    | some c => hostIssueBy run c s
    | none => .refused (.illTyped n)
  | some r =>
    match writeReg cap r v s.regs with
    | some g => .next { s with regs := g }
    | none => .refused (.illTyped n)

/-- `Reset` (R280): every register takes its reset value, in one step; what the host holds is not the core's (log 1, log 2). -/
def hostReset (s : State) : Result := .next { s with regs := Regs.reset }

/-- One host action (R61). -/
def hostActBy (cap : Nat) (run : Instr → State → Result) (a : HostAction) (s : State) : Result :=
  match a with
  | .read n => hostRead n s
  | .write n v => hostWriteBy cap run n v s
  | .issue c => hostIssueBy run c s
  | .reset => hostReset s

/-- One step: the next host action in the queue is taken; with none the core is inert (R27, log 3). -/
def hostStepBy (cap : Nat) (run : Instr → State → Result) (s : State) : Result :=
  match s.hostQueue with
  | [] => .next s
  | a :: rest => hostActBy cap run a { s with hostQueue := rest }

/-- `HostIssue(c)` on the machine. -/
def hostIssue (c : Word32) (s : State) : Result := hostIssueBy exec c s

/-- One host action on the machine. -/
def hostAct (a : HostAction) (s : State) : Result := hostActBy Config.cap exec a s

/-- One step of the machine. -/
def hostStep (s : State) : Result := hostStepBy Config.cap exec s

/-- The host action that issues an instruction whose bits are w, numbered as spec/opcode_table.json numbers them. -/
def issueTableWord (nbits w : Nat) : HostAction := .issue (BitVec.ofNat 32 (w % 2 ^ nbits))

end Sys2Proof.Machine
end

