-- ==== Sys2Proof/Machine/Step.lean ====
section
/-! DEFINITION. One step of the machine, and how an instruction is placed where the next step takes it. -/

namespace Sys2Proof.Machine

/-- One step: one host action (spec/20_memory.md R61: "These four host actions are the only steps a model of the core has"). -/
def step (s : State) : Host.Outcome State Fault Refusal := hostStep s

/-- s with the host about to issue the instruction whose bits are w: the core fetches nothing (spec/10_state.md R27), and
a command comes to it only as the host's next action (log 1). -/
def State.withFetchWord (s : State) (nbits w : Nat) : State :=
  { s with hostQueue := issueTableWord nbits w :: s.hostQueue }

end Sys2Proof.Machine
end

