-- ==== Sys2Proof/Machine/Parametric.lean ====
section
/-! DEFINITION. The core for given parameters (spec/00_scope.md R8; spec/10_state.md R29: "parameters of the model's step
function"). The machine behind Host/Core.lean is the one at `machineParams`; Laws/Parametric.lean proves it. -/

namespace Sys2Proof.Machine

/-- What a command does, for given parameters. Ten commands take none of them. -/
def execWith (p : Params) (i : Instr) (s : State) : Result :=
  match i with
  | .tole sd ua => execTole sd ua s
  | .fromle ud sa => execFromle ud sa s
  | .tobew sd ua => execTobew sd ua s
  | .rhwg sd sa => execRhwg sd sa s
  | .hser sd => execHser sd s
  | .wswap sd sa => execWswap sd sa s
  | .totgt ud => execTotgtWith p ud s
  | .meets ua ub => execMeets ua ub s
  | .b58dec sd sa => execB58dec sd sa s
  | .b58decLen sd sa n => execB58decLen sd sa n s
  | .b58addr sd sa => execB58addrWith p sd sa s
  | .dhash sd sa => execDhashWith p sd sa s
  | .p2pkh sd sa => execP2pkh sd sa s
  | .addrscr sd sa => execAddrscrWith p sd sa s
  | .powh sd sa => execPowhWith p sd sa s

/-- One host action, for given parameters (R61). -/
def hostActWith (p : Params) (a : HostAction) (s : State) : Result := hostActBy p.cap (execWith p) a s

/-- One step, for given parameters (R29, R61). -/
def stepWith (p : Params) (s : State) : Result := hostStepBy p.cap (execWith p) s

end Sys2Proof.Machine
end

