-- ==== Sys2Proof/Safety.lean ====
section
/-! DEFINITION. What counts as a safe run, and the terms the claims about the machine are stated in: the invariant, what
a command may change, what it may depend on, which failures it may report, lists of host actions, several instances, and
the helpers the spec itself defines only to state its laws (`encode`, hexadecimal display). -/

namespace Sys2Proof.Machine

/-! ## The invariant and safe runs -/

/-- Every byte-string register holds at most the given number of bytes (spec/10_state.md R22). Every other bound of R20 is
in the type of its field. -/
def State.Fits (cap : Nat) (s : State) : Prop := ∀ i : SIdx, (s.readS i).length ≤ cap

/-- Every byte-string register holds at most the machine's CAP bytes (R22). -/
def State.Inv (s : State) : Prop := s.Fits Config.cap

/-- A step that is not stopped: no host action was refused. -/
def StepsOn (s : State) : Prop := ∃ t, step s = .next t

/-! ## Frames: what a command changes, and that it changes nothing else (R251, R103) -/

/-- The header-field registers, `DIFF` and the host's side of the port are as before. -/
structure KeepsRest (s t : State) : Prop where
  hversion : t.regs.hversion = s.regs.hversion
  hprev : t.regs.hprev = s.regs.hprev
  hmerkle : t.regs.hmerkle = s.regs.hmerkle
  htime : t.regs.htime = s.regs.htime
  hbits : t.regs.hbits = s.regs.hbits
  hnonce : t.regs.hnonce = s.regs.hnonce
  diff : t.regs.diff = s.regs.diff
  hostQueue : t.hostQueue = s.hostQueue
  lastRead : t.lastRead = s.lastRead

/-- From s to t: `s[d]` becomes b, `STATUS.ERR` becomes 0, and nothing else changes. -/
structure WritesS (d : SIdx) (b : Bytes) (s t : State) : Prop extends KeepsRest s t where
  dest : t.readS d = b
  otherS : ∀ j, j ≠ d → t.readS j = s.readS j
  allU : ∀ j, t.readU j = s.readU j
  err : t.regs.status.err = .ok
  flag : t.regs.status.flag = s.regs.status.flag
  aver : t.regs.status.aver = s.regs.status.aver

/-- From s to t: `u[d]` becomes v, `STATUS.ERR` becomes 0, and nothing else changes. -/
structure WritesU (d : UIdx) (v : Uint256) (s t : State) : Prop extends KeepsRest s t where
  dest : t.readU d = v
  otherU : ∀ j, j ≠ d → t.readU j = s.readU j
  allS : ∀ j, t.readS j = s.readS j
  err : t.regs.status.err = .ok
  flag : t.regs.status.flag = s.regs.status.flag
  aver : t.regs.status.aver = s.regs.status.aver

/-- From s to t: `STATUS.FLAG` becomes f, `STATUS.ERR` becomes 0, and nothing else changes. -/
structure WritesFlag (f : Bool) (s t : State) : Prop extends KeepsRest s t where
  allU : ∀ j, t.readU j = s.readU j
  allS : ∀ j, t.readS j = s.readS j
  err : t.regs.status.err = .ok
  flag : t.regs.status.flag = f
  aver : t.regs.status.aver = s.regs.status.aver

/-- From s to t: `s[d]` becomes the payload, `STATUS.AVER` the version, `STATUS.ERR` 0, and nothing else changes. -/
structure WritesAddr (d : SIdx) (version : Byte) (payload : Bytes) (s t : State) : Prop extends KeepsRest s t where
  dest : t.readS d = payload
  otherS : ∀ j, j ≠ d → t.readS j = s.readS j
  allU : ∀ j, t.readU j = s.readU j
  err : t.regs.status.err = .ok
  flag : t.regs.status.flag = s.regs.status.flag
  aver : t.regs.status.aver = version

/-- From s to t: `STATUS.ERR` becomes e, and nothing else changes (R251: the only write of a command that fails). -/
structure WritesOnlyErr (e : ErrCode) (s t : State) : Prop extends KeepsRest s t where
  allU : ∀ j, t.readU j = s.readU j
  allS : ∀ j, t.readS j = s.readS j
  err : t.regs.status.err = e
  flag : t.regs.status.flag = s.regs.status.flag
  aver : t.regs.status.aver = s.regs.status.aver

/-- The word with these fields spells the command: the encoder gives it, and the decoder reads it back (R93, R101:
`c = OPC * 2^24 + RD * 2^20 + RA * 2^16 + RB * 2^12 + E * 2^8 + ELEN`). -/
def Spells (i : Instr) (opc rd ra rb e elen : Nat) : Prop :=
  encode i = BitVec.ofNat 32 (opc * 2 ^ 24 + rd * 2 ^ 20 + ra * 2 ^ 16 + rb * 2 ^ 12 + e * 2 ^ 8 + elen) ∧
  decodeWord (BitVec.ofNat 32 (opc * 2 ^ 24 + rd * 2 ^ 20 + ra * 2 ^ 16 + rb * 2 ^ 12 + e * 2 ^ 8 + elen)) = .ok i

/-! ## What a command depends on (R28) and which failures it may report (R252) -/

/-- Two states agree on every register the command's rule names as a source (R28). -/
def sourcesAgree (i : Instr) (s s' : State) : Prop :=
  match i with
  | .tole _ ua => s.readU ua = s'.readU ua
  | .fromle _ sa => s.readS sa = s'.readS sa
  | .tobew _ ua => s.readU ua = s'.readU ua
  | .rhwg _ sa => s.readS sa = s'.readS sa
  | .hser _ => s.regs.hversion = s'.regs.hversion ∧ s.regs.hprev = s'.regs.hprev ∧ s.regs.hmerkle = s'.regs.hmerkle ∧
      s.regs.htime = s'.regs.htime ∧ s.regs.hbits = s'.regs.hbits ∧ s.regs.hnonce = s'.regs.hnonce
  | .wswap _ sa => s.readS sa = s'.readS sa
  | .totgt _ => s.regs.diff = s'.regs.diff
  | .meets ua ub => s.readU ua = s'.readU ua ∧ s.readU ub = s'.readU ub
  | .b58dec _ sa => s.readS sa = s'.readS sa
  | .b58decLen _ sa _ => s.readS sa = s'.readS sa
  | .b58addr _ sa => s.readS sa = s'.readS sa
  | .dhash _ sa => s.readS sa = s'.readS sa
  | .p2pkh _ sa => s.readS sa = s'.readS sa
  | .addrscr _ sa => s.readS sa = s'.readS sa
  | .powh _ sa => s.readS sa = s'.readS sa

/-- Two states agree on everything a successful run of the command writes beside `STATUS.ERR` (R28). -/
def resultsAgree (i : Instr) (t t' : State) : Prop :=
  match i with
  | .tole sd _ => t.readS sd = t'.readS sd
  | .fromle ud _ => t.readU ud = t'.readU ud
  | .tobew sd _ => t.readS sd = t'.readS sd
  | .rhwg sd _ => t.readS sd = t'.readS sd
  | .hser sd => t.readS sd = t'.readS sd
  | .wswap sd _ => t.readS sd = t'.readS sd
  | .totgt ud => t.readU ud = t'.readU ud
  | .meets _ _ => t.regs.status.flag = t'.regs.status.flag
  | .b58dec sd _ => t.readS sd = t'.readS sd
  | .b58decLen sd _ _ => t.readS sd = t'.readS sd
  | .b58addr sd _ => t.readS sd = t'.readS sd ∧ t.regs.status.aver = t'.regs.status.aver
  | .dhash sd _ => t.readS sd = t'.readS sd
  | .p2pkh sd _ => t.readS sd = t'.readS sd
  | .addrscr sd _ => t.readS sd = t'.readS sd
  | .powh sd _ => t.readS sd = t'.readS sd

/-- The codes a command may leave in `STATUS.ERR`: the rows of R252, and 0 for success. -/
def mayReport : Instr → List ErrCode
  | .tole _ _ => [.ok]
  | .fromle _ _ => [.ok, .lengthError]
  | .tobew _ _ => [.ok]
  | .rhwg _ _ => [.ok, .formatError]
  | .hser _ => [.ok]
  | .wswap _ _ => [.ok, .lengthError]
  | .totgt _ => [.ok, .rangeError]
  | .meets _ _ => [.ok]
  | .b58dec _ _ => [.ok, .badDigit]
  | .b58decLen _ _ _ => [.ok, .lengthMismatchError, .badDigit]
  | .b58addr _ _ => [.ok, .lengthMismatchError, .checksumError, .badDigit]
  | .dhash _ _ => [.ok]
  | .p2pkh _ _ => [.ok, .lengthError]
  | .addrscr _ _ => [.ok, .invalidAddressError]
  | .powh _ _ => [.ok, .lengthError]

/-- Whether the command's rule names one of the parameters `MAX_TARGET`, `SHA256`, `POW_HASH` (R8). -/
def usesParams : Instr → Bool
  | .totgt _ | .b58addr _ _ | .dhash _ _ | .addrscr _ _ | .powh _ _ => true
  | .tole _ _ | .fromle _ _ | .tobew _ _ | .rhwg _ _ | .hser _ | .wswap _ _ | .meets _ _ | .b58dec _ _ | .b58decLen _ _ _
  | .p2pkh _ _ => false

/-! ## Base58 text, said without the decoder (R181 to R183, R192) -/

/-- Every character of the text is one of the 58 digits (R181). -/
def AllDigits (text : Bytes) : Prop := ∀ c ∈ text, (digitVal c).isSome = true

/-- The number the text spells: the sum of `val(s[i]) * 58^(L-1-i)` (R183). -/
def textNumber (text : Bytes) : Nat :=
  ∑ i ∈ Finset.range text.length, (digitVal (text.getD i 0#8)).getD 0 * 58 ^ (text.length - 1 - i)

/-- z is the number of leading '1' characters: the largest z ≤ L with the first z characters all '1' (R183). -/
def HasLeadingOnes (text : Bytes) (z : Nat) : Prop :=
  z ≤ text.length ∧ (∀ i < z, text[i]? = some 0x31#8) ∧ text[z]? ≠ some 0x31#8

/-- m is the shortest byte string whose big-endian value is n: it has that value, and its first byte is not zero (R182). -/
def IsMinBytes (n : Nat) (m : Bytes) : Prop := beval m = n ∧ m.head? ≠ some 0#8

/-- The text decodes to r: one zero byte per leading '1', then the minimal bytes of its number (R183). -/
def DecodesTo (text r : Bytes) : Prop :=
  AllDigits text ∧ ∃ z m, HasLeadingOnes text z ∧ IsMinBytes (textNumber text) m ∧ r = rep 0#8 z ++ m

/-- The character of a digit value (R180). -/
def digitChar (v : Nat) : Byte := alphabet.getD v 0#8

/-- `encode(b)`, a helper of the spec and not an operation of the core (R192): one '1' per leading zero byte, then the
base-58 digits of the number, most significant first. -/
def encode58 (b : Bytes) : Bytes :=
  rep 0x31#8 (b.takeWhile (· == 0#8)).length ++ ((Nat.digits 58 (beval b)).reverse.map digitChar)

/-- 25 bytes whose checksum is right under a given SHA256 (R188). -/
def PassesCheck (sha : HashFn) (r : Bytes) : Prop :=
  r.length = 25 ∧ slice r 21 4 = first 4 (doubleHash sha (first 21 r))

/-! ## Hexadecimal display (R131) -/

/-- The character of a hexadecimal digit. -/
def hexChar (d : Nat) : Byte := if d < 10 then BitVec.ofNat 8 (0x30 + d) else BitVec.ofNat 8 (0x61 + (d - 10))

/-- A byte string as hexadecimal text, two characters per byte, in order. -/
def hexText (b : Bytes) : Bytes := b.flatMap fun x => [hexChar (x.toNat / 16), hexChar (x.toNat % 16)]

/-- `hexBE(u)`: the 64-digit hexadecimal display of a Uint256, most significant digit first (R131). -/
def hexBE (u : Uint256) : Bytes := hexText (be 32 u.toNat)

/-! ## Lists of host actions (R71) and the share flow (R225) -/

/-- Host actions taken one after another, each on the state the one before left (R71: the left fold). -/
def hostActs : List HostAction → State → Result
  | [], s => .next s
  | a :: rest, s =>
    match hostAct a s with
    | .next t => hostActs rest t
    | .fault f => .fault f
    | .refused r => .refused r

/-- Commands executed one after another. -/
def execAll : List Instr → State → Result
  | [], s => .next s
  | i :: rest, s =>
    match exec i s with
    | .next t => execAll rest t
    | .fault f => .fault f
    | .refused r => .refused r

/-- Host actions taken one after another on a core with given parameters (R71). -/
def hostActsWith (p : Params) : List HostAction → State → Result
  | [], s => .next s
  | a :: rest, s =>
    match hostActWith p a s with
    | .next t => hostActsWith p rest t
    | .fault f => .fault f
    | .refused r => .refused r

/-! ## Several instances with the same parameters (R223) -/

/-- One instance of several takes a step; the others do not (R223). Nothing where its step is refused. -/
def stepInstance {n : Nat} (p : Params) (cores : Fin n → State) (k : Fin n) : Option (Fin n → State) :=
  match stepWith p (cores k) with
  | .next t => some (Function.update cores k t)
  | .fault _ => none
  | .refused _ => none

/-- Instances stepped in the order of a schedule (R223: "every interleaving of their steps"). -/
def runSchedule {n : Nat} (p : Params) : List (Fin n) → (Fin n → State) → Option (Fin n → State)
  | [], cores => some cores
  | k :: rest, cores => (stepInstance p cores k).bind (runSchedule p rest)

end Sys2Proof.Machine
end

