-- ==== Sys2Proof/Certificates/Slice0/Obligations.lean ====
section
/-! DEFINITION. The statements for the provers, from the numbered rules of spec/. "∃ t, exec i s = .next t ∧ …" says that
the instruction completes; the `Writes…` predicates of Sys2Proof/Safety.lean say its whole effect, frame included. -/

open Sys2Proof Sys2Proof.Machine

/-! ## Command words (spec/30_encoding.md) -/

/-- R101: for every well-formed command, its word decodes to it, with every operand. -/
def Obligations.DecodingAnEncodedCommandGivesItBack : Prop :=
  ∀ i : Instr, i.wellFormed = true → decodeWord (encode i) = .ok i

/-- R94: a word that decodes is the word of a well-formed command, so no two words spell one command and no bit is dropped. -/
def Obligations.EncodingADecodedWordGivesItBack : Prop :=
  ∀ (w : Word32) (i : Instr), decodeWord w = .ok i → i.wellFormed = true ∧ encode i = w

/-- R101: a word spells a row's command exactly when word AND mask = match, for every row of the opcode table. -/
def Obligations.DecoderAgreesWithMatchAndMask : Prop :=
  ∀ (w : Word32) (j : Instr),
    (w &&& j.row.mask = j.row.pattern) ↔ ∃ i : Instr, decodeWord w = .ok i ∧ i.row = j.row

/-- R94: a word is a command exactly when its fields meet the conditions, the command's operands are then its fields, and
a word that is no command raises IllegalCommand and changes nothing else. -/
def Obligations.DecodingChecksTheFields : Prop :=
  ∀ c : Word32,
    ((∃ i, decodeWord c = .ok i) ↔
      ∃ op : Op, op.code = (opcField c).toNat ∧ zField c = 0#3 ∧
        (if op.usesRd then (rdField c).toNat ≤ 3 else rdField c = 0#4) ∧
        (if op.usesRa then (raField c).toNat ≤ 3 else raField c = 0#4) ∧
        (if op.usesRb then (rbField c).toNat ≤ 3 else rbField c = 0#4) ∧
        (op ≠ .b58dec → eField c = 0#1 ∧ elenField c = 0#8) ∧
        (op = .b58dec → eField c = 0#1 → elenField c = 0#8)) ∧
    (∀ i, decodeWord c = .ok i → i.op.code = (opcField c).toNat ∧ i.rd = (rdField c).toNat ∧ i.ra = (raField c).toNat ∧
      i.rb = (rbField c).toNat ∧ i.e = (eField c).toNat ∧ i.elen = (elenField c).toNat) ∧
    ∀ s : State, (∀ i, decodeWord c ≠ .ok i) →
      ∃ t, hostAct (.issue c) s = .next t ∧ WritesOnlyErr .illegalCommand s t

/-- Words written out in R101 decode to the commands they stand for. -/
def Obligations.WordsOfTheSpecDecode : Prop :=
  decodeWord 0x10120000#32 = .ok (.tole 1 2) ∧ decodeWord 0x11010000#32 = .ok (.fromle 0 1) ∧
  decodeWord 0x20000000#32 = .ok (.hser 0) ∧ decodeWord 0x21000000#32 = .ok (.wswap 0 0) ∧
  decodeWord 0x30100000#32 = .ok (.totgt 1) ∧ decodeWord 0x31001000#32 = .ok (.meets 0 1) ∧
  decodeWord 0x40010000#32 = .ok (.b58dec 0 1) ∧ decodeWord 0x40010119#32 = .ok (.b58decLen 0 1 25) ∧
  decodeWord 0x41200000#32 = .ok (.b58addr 2 0) ∧ decodeWord 0x51100000#32 = .ok (.addrscr 1 0) ∧
  decodeWord 0x60100000#32 = .ok (.powh 1 0)

/-! ## The step and the host actions (spec/20_memory.md, spec/10_state.md, spec/70_reset_and_hazards.md) -/

/-- When the next host action issues a word that spells i, a step is exec of i on the state with that action taken. -/
def Obligations.StepRunsTheIssuedCommand : Prop :=
  ∀ (s : State) (c : Word32) (rest : List HostAction) (i : Instr),
    s.hostQueue = .issue c :: rest → decodeWord c = .ok i → step s = exec i { s with hostQueue := rest }

/-- R95, with the rows of R101: issuing a word that no row of the opcode table matches sets `STATUS.ERR` to IllegalCommand
and changes nothing else, and the all-zero and the all-ones word are two of them. That the word comes from the queue of
host actions is the model's choice (log 1). -/
def Obligations.IllegalWordRaisesIllegalCommand : Prop :=
  (∀ (s : State) (c : Word32) (rest : List HostAction),
    s.hostQueue = .issue c :: rest → (∀ j : Instr, c &&& j.row.mask ≠ j.row.pattern) →
    ∃ t, step s = .next t ∧ WritesOnlyErr .illegalCommand { s with hostQueue := rest } t) ∧
  ∀ c ∈ [0x00000000#32, 0xFFFFFFFF#32], ∀ j : Instr, c &&& j.row.mask ≠ j.row.pattern

/-- R26: a host write of `CMD` is the same action as issuing the word, and `CMD` cannot be read. -/
def Obligations.WritingCmdIsIssuing : Prop :=
  ∀ s : State, (∀ c : Word32, hostAct (.write 0x50 (.num c.toNat)) s = hostAct (.issue c) s) ∧
    hostAct (.read 0x50) s = .refused (.notReadable 0x50)

/-- R71: running a machine whose host queue begins with a list of actions is taking those actions one after another. -/
def Obligations.RunningIsFoldingTheHostActions : Prop :=
  ∀ (actions rest : List HostAction) (s : State),
    Host.Core.run Sys2Proof.core actions.length { s with hostQueue := actions ++ rest } =
      hostActs actions { s with hostQueue := rest }

/-- R71, R26: issuing the words of a list of well-formed commands, one after another, executes the list. -/
def Obligations.IssuingTheWordsOfAProgramExecutesIt : Prop :=
  ∀ (program : List Instr) (s : State), (∀ i ∈ program, i.wellFormed = true) →
    hostActs (program.map fun i => .issue (encode i)) s = execAll program s

/-- The model's choice (log 3): with no host action pending a step changes nothing. -/
def Obligations.StepWithoutHostActionChangesNothing : Prop :=
  ∀ s : State, s.hostQueue = [] → step s = .next s

/-- R61, R69: a host read returns the value of the register, whole, and changes no register; R62: `CMD` cannot be read. -/
def Obligations.HostReadReturnsTheRegister : Prop :=
  ∀ s : State,
    (∀ i : UIdx, hostAct (.read (0x00 + i.val)) s = .next { s with lastRead := some (.num (s.readU i).toNat) }) ∧
    (∀ i : SIdx, hostAct (.read (0x10 + i.val)) s = .next { s with lastRead := some (.bytes (s.readS i)) }) ∧
    hostAct (.read 0x20) s = .next { s with lastRead := some (.num s.regs.hversion.toNat) } ∧
    hostAct (.read 0x21) s = .next { s with lastRead := some (.bytes s.regs.hprev.toList) } ∧
    hostAct (.read 0x22) s = .next { s with lastRead := some (.num s.regs.hmerkle.toNat) } ∧
    hostAct (.read 0x23) s = .next { s with lastRead := some (.bytes s.regs.htime.toList) } ∧
    hostAct (.read 0x24) s = .next { s with lastRead := some (.num s.regs.hbits.toNat) } ∧
    hostAct (.read 0x25) s = .next { s with lastRead := some (.bytes s.regs.hnonce.toList) } ∧
    hostAct (.read 0x30) s = .next { s with lastRead := some (.num s.regs.diff.toNat) } ∧
    hostAct (.read 0x40) s = .next { s with lastRead := some (.num (statusWord s.regs.status).toNat) } ∧
    hostAct (.read 0x50) s = .refused (.notReadable 0x50)

/-- R61, R62: a host write of a value of the register's type stores it and changes nothing else. -/
def Obligations.HostWriteStoresTheValue : Prop :=
  ∀ s : State,
    (∀ (i : UIdx) (v : Uint256), hostAct (.write (0x00 + i.val) (.num v.toNat)) s = .next (s.writeU i v)) ∧
    (∀ (i : SIdx) (b : Bytes), b.length ≤ Config.cap → hostAct (.write (0x10 + i.val) (.bytes b)) s = .next (s.writeS i b)) ∧
    (∀ v : BitVec 32, hostAct (.write 0x20 (.num v.toNat)) s = .next { s with regs := { s.regs with hversion := v } }) ∧
    (∀ b : Vector Byte 32, hostAct (.write 0x21 (.bytes b.toList)) s = .next { s with regs := { s.regs with hprev := b } }) ∧
    (∀ v : Uint256, hostAct (.write 0x22 (.num v.toNat)) s = .next { s with regs := { s.regs with hmerkle := v } }) ∧
    (∀ b : Vector Byte 4, hostAct (.write 0x23 (.bytes b.toList)) s = .next { s with regs := { s.regs with htime := b } }) ∧
    (∀ v : BitVec 32, hostAct (.write 0x24 (.num v.toNat)) s = .next { s with regs := { s.regs with hbits := v } }) ∧
    (∀ b : Vector Byte 4, hostAct (.write 0x25 (.bytes b.toList)) s = .next { s with regs := { s.regs with hnonce := b } }) ∧
    (∀ v : BitVec 64, hostAct (.write 0x30 (.num v.toNat)) s = .next { s with regs := { s.regs with diff := v } })

/-- R62: what is not a host action is refused: a number too wide or of the wrong kind, a string of the wrong length, a
write of `STATUS`, a read of `CMD`, a read or write of a register number that R30 does not list. Which refusal it is, by
its name, is the model's (log 4). -/
def Obligations.WhatIsNoHostActionIsRefused : Prop :=
  ∀ s : State,
    (∀ (i : UIdx) (n : Nat), 2 ^ 256 ≤ n → hostAct (.write (0x00 + i.val) (.num n)) s = .refused (.illTyped (0x00 + i.val))) ∧
    (∀ (i : UIdx) (b : Bytes), hostAct (.write (0x00 + i.val) (.bytes b)) s = .refused (.illTyped (0x00 + i.val))) ∧
    (∀ (i : SIdx) (b : Bytes), Config.cap < b.length →
      hostAct (.write (0x10 + i.val) (.bytes b)) s = .refused (.illTyped (0x10 + i.val))) ∧
    (∀ (i : SIdx) (n : Nat), hostAct (.write (0x10 + i.val) (.num n)) s = .refused (.illTyped (0x10 + i.val))) ∧
    (∀ b : Bytes, b.length ≠ 32 → hostAct (.write 0x21 (.bytes b)) s = .refused (.illTyped 0x21)) ∧
    (∀ b : Bytes, b.length ≠ 4 → hostAct (.write 0x23 (.bytes b)) s = .refused (.illTyped 0x23)) ∧
    (∀ b : Bytes, b.length ≠ 4 → hostAct (.write 0x25 (.bytes b)) s = .refused (.illTyped 0x25)) ∧
    (∀ n : Nat, 2 ^ 32 ≤ n → hostAct (.write 0x20 (.num n)) s = .refused (.illTyped 0x20)) ∧
    (∀ n : Nat, 2 ^ 256 ≤ n → hostAct (.write 0x22 (.num n)) s = .refused (.illTyped 0x22)) ∧
    (∀ n : Nat, 2 ^ 32 ≤ n → hostAct (.write 0x24 (.num n)) s = .refused (.illTyped 0x24)) ∧
    (∀ n : Nat, 2 ^ 64 ≤ n → hostAct (.write 0x30 (.num n)) s = .refused (.illTyped 0x30)) ∧
    (∀ n : Nat, 2 ^ 32 ≤ n → hostAct (.write 0x50 (.num n)) s = .refused (.illTyped 0x50)) ∧
    (∀ k ∈ [0x20, 0x22, 0x24, 0x30, 0x50], ∀ b : Bytes, hostAct (.write k (.bytes b)) s = .refused (.illTyped k)) ∧
    (∀ k ∈ [0x21, 0x23, 0x25], ∀ n : Nat, hostAct (.write k (.num n)) s = .refused (.illTyped k)) ∧
    hostAct (.read 0x50) s = .refused (.notReadable 0x50) ∧
    (∀ v : RegValue, hostAct (.write 0x40 v) s = .refused (.notWritable 0x40)) ∧
    (∀ n : Nat, (∀ r : RegName, r.number ≠ n) →
      hostAct (.read n) s = .refused (.noSuchRegister n) ∧
      ∀ v : RegValue, hostAct (.write n v) s = .refused (.noSuchRegister n))

/-- R71: a read of a register returns the value the write just before it stored. -/
def Obligations.ReadAfterWriteReturnsTheValueWritten : Prop :=
  ∀ (n : Nat) (v : RegValue) (s t : State), n ≠ 0x50 → hostAct (.write n v) s = .next t →
    hostAct (.read n) t = .next { t with lastRead := some v }

/-- R280, R31: `Reset`, from any state, gives every register its reset value. -/
def Obligations.ResetGivesEveryRegisterItsResetValue : Prop :=
  ∀ s : State, ∃ t, hostAct .reset s = .next t ∧ (∀ i, t.readU i = 0#256) ∧ (∀ i, t.readS i = []) ∧
    t.regs.hversion = 0#32 ∧ t.regs.hprev.toList = rep 0x00#8 32 ∧ t.regs.hmerkle = 0#256 ∧
    t.regs.htime.toList = rep 0x00#8 4 ∧ t.regs.hbits = 0#32 ∧ t.regs.hnonce.toList = rep 0x00#8 4 ∧
    t.regs.diff = 0#64 ∧ statusWord t.regs.status = 0#32 ∧ t.regs = State.reset.regs

/-- R25: the layout of the `STATUS` word: ERR, FLAG, AVER at their places and every other bit 0. -/
def Obligations.StatusWordHasItsFieldsInPlace : Prop :=
  ∀ st : Status,
    (statusWord st).extractLsb' 0 8 = st.err.toByte ∧ (statusWord st).extractLsb' 8 1 = BitVec.ofBool st.flag ∧
    (statusWord st).extractLsb' 9 7 = 0#7 ∧ (statusWord st).extractLsb' 16 8 = st.aver ∧
    (statusWord st).extractLsb' 24 8 = 0#8

/-- R250: the number of each error code, and that no number above 8 ever stands in `STATUS.ERR`. -/
def Obligations.ErrorCodesHaveTheirNumbers : Prop :=
  ErrCode.ok.toByte = 0x00#8 ∧ CmdError.lengthError.code.toByte = 0x01#8 ∧ CmdError.formatError.code.toByte = 0x02#8 ∧
  CmdError.lengthMismatchError.code.toByte = 0x03#8 ∧ CmdError.checksumError.code.toByte = 0x04#8 ∧
  CmdError.invalidAddressError.code.toByte = 0x05#8 ∧ CmdError.rangeError.code.toByte = 0x06#8 ∧
  CmdError.badDigit.code.toByte = 0x07#8 ∧ CmdError.illegalCommand.code.toByte = 0x08#8 ∧
  ∀ s : State, (statusWord s.regs.status).toNat % 256 ≤ 8

/-! ## Rules over all commands -/

/-- The reset state satisfies the invariant. -/
def Obligations.ResetStateSatisfiesCapacity : Prop := State.reset.Inv

/-- R22: from every state whose byte-string registers hold at most CAP bytes, a step gives one whose registers do; the same
for the core with any parameters and its CAP. -/
def Obligations.EveryStepKeepsCapacity : Prop :=
  (∀ s t : State, s.Inv → step s = .next t → t.Inv) ∧
  ∀ (p : Params) (s t : State), s.Fits p.cap → stepWith p s = .next t → t.Fits p.cap

/-- R256: from every state every command answers a next state, and so does every issued word and `Reset`. -/
def Obligations.EveryCommandGoesOn : Prop :=
  (∀ (i : Instr) (s : State), ∃ t, exec i s = .next t) ∧
  (∀ (c : Word32) (s : State), ∃ t, hostAct (.issue c) s = .next t) ∧
  ∀ s : State, ∃ t, hostAct .reset s = .next t

/-- R251: a command that fails writes `STATUS.ERR` and nothing else, and fails the same way when it is issued again; host
writes and reads of registers other than `CMD` never change `STATUS`. -/
def Obligations.FailedCommandWritesOnlyErrAndFailsAgain : Prop :=
  (∀ (i : Instr) (s t : State), exec i s = .next t → t.regs.status.err ≠ .ok →
    WritesOnlyErr t.regs.status.err s t ∧ exec i t = .next t) ∧
  (∀ (n : Nat) (v : RegValue) (s t : State), n ≠ 0x50 → hostAct (.write n v) s = .next t → t.regs.status = s.regs.status) ∧
  ∀ (n : Nat) (s t : State), hostAct (.read n) s = .next t → t.regs = s.regs

/-- R252: a command leaves in `STATUS.ERR` only a code of its row of the error matrix. -/
def Obligations.CommandsReportOnlyTheirErrors : Prop :=
  ∀ (i : Instr) (s t : State), exec i s = .next t → t.regs.status.err ∈ mayReport i

/-- R25, R23, R24: no command writes a header-field register or `DIFF`, only `MEETS` changes FLAG, only `B58ADDR` changes AVER. -/
def Obligations.CommandsKeepTheRegistersTheyDoNotWrite : Prop :=
  ∀ (i : Instr) (s t : State), exec i s = .next t →
    KeepsRest s t ∧
    ((∀ ua ub, i ≠ .meets ua ub) → t.regs.status.flag = s.regs.status.flag) ∧
    ((∀ sd sa, i ≠ .b58addr sd sa) → t.regs.status.aver = s.regs.status.aver)

/-- R28: two runs of a command that agree on the registers its rule names as sources agree on the error code and, when it
succeeds, on everything written, whatever every other register and `STATUS` hold. -/
def Obligations.CommandDependsOnlyOnItsSources : Prop :=
  ∀ (i : Instr) (s s' t t' : State), sourcesAgree i s s' → exec i s = .next t → exec i s' = .next t' →
    t.regs.status.err = t'.regs.status.err ∧ (t.regs.status.err = .ok → resultsAgree i t t')

/-- R223: however the steps of several instances interleave, each ends as its own host actions, taken in their order on
that instance alone, leave it. The queues are the model's (log 1), a step with none left changes nothing (log 3), and the
family with its schedule is the model's form of several instances (log 13). -/
def Obligations.InterleavedInstancesRunAsAlone : Prop :=
  ∀ (p : Params) (n : Nat) (schedule : List (Fin n)) (cores cores' : Fin n → State),
    runSchedule p schedule cores = some cores' →
    ∀ k : Fin n,
      hostActsWith p ((cores k).hostQueue.take (schedule.count k))
        { cores k with hostQueue := (cores k).hostQueue.drop (schedule.count k) } = .next (cores' k)

/-! ## UintCodec (spec/40_uintcodec.md) -/

/-- R124, R120: `TOLE` writes the 32 bytes of the number, byte i being its bits 8i+7 to 8i. -/
def Obligations.ToleWritesLittleEndianBytes : Prop :=
  ∀ (sd : SIdx) (ua : UIdx) (s : State),
    Spells (.tole sd ua) 0x10 sd.val ua.val 0 0 0 ∧
    ∃ t b, exec (.tole sd ua) s = .next t ∧ WritesS sd b s t ∧ b.length = 32 ∧
      (∀ i < 32, b[i]? = some ((s.readU ua).extractLsb' (8 * i) 8)) ∧
      ∀ k < 8, ∀ j < 4, b[4 * k + j]? = some (((s.readU ua).extractLsb' (32 * k) 32).extractLsb' (8 * j) 8)

/-- R125, R121: `FROMLE` of 32 bytes writes the sum of `b[i] * 256^i`; any other length is a LengthError. -/
def Obligations.FromleWritesTheLittleEndianSum : Prop :=
  ∀ (ud : UIdx) (sa : SIdx) (s : State),
    Spells (.fromle ud sa) 0x11 ud.val sa.val 0 0 0 ∧
    ((s.readS sa).length = 32 → ∃ t v, exec (.fromle ud sa) s = .next t ∧ WritesU ud v s t ∧
      v.toNat = (∑ i ∈ Finset.range 32, ((s.readS sa).getD i 0#8).toNat * 256 ^ i) ∧
      ∀ i < 32, (s.readS sa)[i]? = some (v.extractLsb' (8 * i) 8)) ∧
    ((s.readS sa).length ≠ 32 → ∃ t, exec (.fromle ud sa) s = .next t ∧ WritesOnlyErr .lengthError s t)

/-- R126, R122: `TOBEW` writes the words least significant first, the bytes of each word most significant first. -/
def Obligations.TobewWritesWordwiseBigEndianBytes : Prop :=
  ∀ (sd : SIdx) (ua : UIdx) (s : State),
    Spells (.tobew sd ua) 0x12 sd.val ua.val 0 0 0 ∧
    ∃ t b, exec (.tobew sd ua) s = .next t ∧ WritesS sd b s t ∧ b.length = 32 ∧
      ∀ k < 8, ∀ j < 4, b[4 * k + j]? = some ((s.readU ua).extractLsb' (32 * k + 8 * (3 - j)) 8)

/-- R127, R123: `RHWG` of 64 bytes reverses the order of the eight groups of eight; any other length is a FormatError. -/
def Obligations.RhwgReversesTheGroups : Prop :=
  ∀ (sd sa : SIdx) (s : State),
    Spells (.rhwg sd sa) 0x13 sd.val sa.val 0 0 0 ∧
    ((s.readS sa).length = 64 → ∃ t r, exec (.rhwg sd sa) s = .next t ∧ WritesS sd r s t ∧ r.length = 64 ∧
      ∀ k < 8, ∀ j < 8, r[8 * k + j]? = (s.readS sa)[8 * (7 - k) + j]?) ∧
    ((s.readS sa).length ≠ 64 → ∃ t, exec (.rhwg sd sa) s = .next t ∧ WritesOnlyErr .formatError s t)

/-- R128: toBytesLE and fromBytesLE are inverse to each other, as functions and as commands. -/
def Obligations.LittleEndianRoundTrip : Prop :=
  (∀ b : Bytes, b.length = 32 → ∃ u, fromBytesLE b = .ok u ∧ toBytesLE u = b) ∧
  (∀ u : Uint256, fromBytesLE (toBytesLE u) = .ok u) ∧
  (∀ (ux : UIdx) (sy sz : SIdx) (s : State), (s.readS sy).length = 32 →
    ∃ t, execAll [.fromle ux sy, .tole sz ux] s = .next t ∧ t.readS sz = s.readS sy) ∧
  ∀ (sy : SIdx) (ux uz : UIdx) (s : State),
    ∃ t, execAll [.tole sy ux, .fromle uz sy] s = .next t ∧ t.readU uz = s.readU ux

/-- R129: reverseHexWordGroups is an involution on every 64-byte string. -/
def Obligations.ReverseHexWordGroupsIsAnInvolution : Prop :=
  ∀ h : Bytes, h.length = 64 → ∃ r, reverseHexWordGroups h = .ok r ∧ reverseHexWordGroups r = .ok h

/-- R130: the two serializations of a number differ by the chunk swap. -/
def Obligations.SerializationsDifferByTheChunkSwap : Prop :=
  ∀ u : Uint256, toBytesBEWordwise u = chunkswap4 (toBytesLE u) ∧ toBytesLE u = chunkswap4 (toBytesBEWordwise u)

/-- R131: reversing the groups of a displayed hash gives the hexadecimal text of its word-wise bytes. -/
def Obligations.ReversedDisplayedHashIsTheWordwiseBytes : Prop :=
  ∀ u : Uint256, reverseHexWordGroups (hexBE u) = .ok (hexText (toBytesBEWordwise u))

/-! ## HeaderSerializer (spec/41_headerserializer.md) -/

/-- R141, R140: `HSER` writes the 80-byte header, each field at its place in its byte order. -/
def Obligations.HserWritesTheHeader : Prop :=
  ∀ (sd : SIdx) (s : State),
    Spells (.hser sd) 0x20 sd.val 0 0 0 0 ∧
    ∃ t h, exec (.hser sd) s = .next t ∧ WritesS sd h s t ∧ h.length = 80 ∧
      (∀ i < 4, h[i]? = some (s.regs.hversion.extractLsb' (8 * (3 - i)) 8)) ∧
      (∀ i < 32, h[4 + i]? = s.regs.hprev.toList[i]?) ∧
      (∀ k < 8, ∀ j < 4, h[36 + 4 * k + j]? = some (s.regs.hmerkle.extractLsb' (32 * k + 8 * (3 - j)) 8)) ∧
      (∀ i < 4, h[68 + i]? = s.regs.htime.toList[i]?) ∧
      (∀ i < 4, h[72 + i]? = some (s.regs.hbits.extractLsb' (8 * (3 - i)) 8)) ∧
      (∀ i < 4, h[76 + i]? = s.regs.hnonce.toList[i]?)

/-- R143, R142: `WSWAP` of 80 bytes reverses the 4 bytes inside each chunk; any other length is a LengthError. -/
def Obligations.WswapReversesEachChunk : Prop :=
  ∀ (sd sa : SIdx) (s : State),
    Spells (.wswap sd sa) 0x21 sd.val sa.val 0 0 0 ∧
    ((s.readS sa).length = 80 → ∃ t w, exec (.wswap sd sa) s = .next t ∧ WritesS sd w s t ∧ w.length = 80 ∧
      ∀ c < 20, ∀ j < 4, w[4 * c + j]? = (s.readS sa)[4 * c + (3 - j)]?) ∧
    ((s.readS sa).length ≠ 80 → ∃ t, exec (.wswap sd sa) s = .next t ∧ WritesOnlyErr .lengthError s t)

/-- R144: serialize always gives 80 bytes, and the chunk swap of 80 bytes is an involution that keeps the length; as
commands, `HSER` and a successful `WSWAP` leave 80 bytes, and `WSWAP` twice restores its source. -/
def Obligations.HeaderLengthAndChunkSwapInvolution : Prop :=
  (∀ v p m t b n, (serialize v p m t b n).length = 80) ∧
  (∀ (sd : SIdx) (s t : State), exec (.hser sd) s = .next t → (t.readS sd).length = 80) ∧
  (∀ h : Bytes, h.length = 80 → ∃ w, chunkswap80 h = .ok w ∧ w.length = 80 ∧ chunkswap80 w = .ok h) ∧
  ∀ (sd sa : SIdx) (s t : State), exec (.wswap sd sa) s = .next t → t.regs.status.err = .ok →
    (t.readS sd).length = 80 ∧ ∃ t', exec (.wswap sd sd) t = .next t' ∧ t'.readS sd = s.readS sa

/-- R145: what the hash oracle receives, field by field. -/
def Obligations.SwappedHeaderIsLittleEndian : Prop :=
  ∀ (version : BitVec 32) (prev : Vector Byte 32) (merkle : Uint256) (time : Vector Byte 4) (bits : BitVec 32)
    (nonce : Vector Byte 4),
    ∃ w, chunkswap80 (serialize version prev merkle time bits nonce) = .ok w ∧
      slice w 0 4 = le 4 version.toNat ∧
      (∀ c < 8, ∀ j < 4, w[4 + 4 * c + j]? = prev.toList[4 * c + (3 - j)]?) ∧
      slice w 36 32 = toBytesLE merkle ∧ slice w 68 4 = time.toList.reverse ∧
      slice w 72 4 = le 4 bits.toNat ∧ slice w 76 4 = nonce.toList.reverse

/-! ## DifficultyTarget (spec/42_difficultytarget.md) -/

/-- R162, R161: `TOTGT` writes the floor of MAX_TARGET / DIFF; DIFF = 0 is a RangeError. -/
def Obligations.TotgtWritesTheFloorQuotient : Prop :=
  ∀ (ud : UIdx) (s : State),
    Spells (.totgt ud) 0x30 ud.val 0 0 0 0 ∧
    (s.regs.diff ≠ 0#64 → ∃ t v, exec (.totgt ud) s = .next t ∧ WritesU ud v s t ∧
      v.toNat * s.regs.diff.toNat ≤ Config.maxTarget.toNat ∧
      Config.maxTarget.toNat < (v.toNat + 1) * s.regs.diff.toNat) ∧
    (s.regs.diff = 0#64 → ∃ t, exec (.totgt ud) s = .next t ∧ WritesOnlyErr .rangeError s t)

/-- R164, R163: `MEETS` sets FLAG exactly when the hash is at most the target, unsigned. -/
def Obligations.MeetsSetsFlagToTheComparison : Prop :=
  ∀ (ua ub : UIdx) (s : State),
    Spells (.meets ua ub) 0x31 0 ua.val ub.val 0 0 ∧
    ∃ t f, exec (.meets ua ub) s = .next t ∧ WritesFlag f s t ∧
      (f = true ↔ (s.readU ua).toNat ≤ (s.readU ub).toNat)

/-- R166: for every MAX_TARGET, toTarget(1) is it and toTarget(2) its half; a larger divisor never gives a larger target,
and gives a strictly smaller one for 64-bit divisors when MAX_TARGET is at least 2^128. -/
def Obligations.TargetFallsAsDifficultyRises : Prop :=
  ∀ maxTarget : Uint256,
    toTarget maxTarget 1 = .ok maxTarget ∧
    toTarget maxTarget 2 = .ok (BitVec.ofNat 256 (maxTarget.toNat / 2)) ∧
    ∀ d1 d2 : Nat, 1 ≤ d1 → d1 < d2 → d2 < 2 ^ 64 →
      ∃ t1 t2, toTarget maxTarget d1 = .ok t1 ∧ toTarget maxTarget d2 = .ok t2 ∧ t2.toNat ≤ t1.toNat ∧
        (2 ^ 128 ≤ maxTarget.toNat → t2.toNat < t1.toNat)

/-- R160 and the model's choice of its default (log 6): the value of MAX_TARGET, digit by digit. -/
def Obligations.MaxTargetHasItsDefaultValue : Prop :=
  Config.maxTarget = 0x0000FFFF00000000000000000000000000000000000000000000000000000000#256 ∧
  Config.maxTarget.toNat = 65535 * 2 ^ 224

/-! ## Base58Check (spec/43_base58check.md) -/

/-- R181: the digit values are those of the table, and no other byte is a digit; R180: they are positions in the alphabet. -/
def Obligations.DigitValuesAreAlphabetPositions : Prop :=
  alphabet.length = 58 ∧
  (∀ v < 58, digitVal (alphabet.getD v 0#8) = some v) ∧
  (∀ c : Byte, (digitVal c).isSome = true ↔ c ∈ alphabet) ∧
  ∀ c ∈ [0x30#8, 0x49#8, 0x4f#8, 0x6c#8, 0x20#8, 0x00#8], digitVal c = none

/-- R182: minbytes(n) spells n and is the shortest byte string that does: be(m, n) for the least m with n < 256^m, so its
first byte is not zero; that of 0 is empty. -/
def Obligations.MinbytesIsTheShortestSpelling : Prop :=
  (∀ n : Nat, beval (minbytes n) = n ∧ (minbytes n).head? ≠ some 0#8 ∧ ∀ b : Bytes, beval b = n → (minbytes n).length ≤ b.length) ∧
  (∀ n : Nat, 0 < n → ∃ m, minbytes n = be m n ∧ n < 256 ^ m ∧ ∀ k, n < 256 ^ k → m ≤ k) ∧
  minbytes 0 = []

/-- R184: `B58DEC` writes the decoded bytes; with an expected length n another number of bytes is a LengthMismatchError; a
character that is no digit is a BadDigit and comes first. -/
def Obligations.B58decWritesTheDecodedBytes : Prop :=
  ∀ (sd sa : SIdx) (s : State),
    Spells (.b58dec sd sa) 0x40 sd.val sa.val 0 0 0 ∧
    (∀ n ≤ 255, Spells (.b58decLen sd sa n) 0x40 sd.val sa.val 0 1 n) ∧
    (AllDigits (s.readS sa) → ∃ r, DecodesTo (s.readS sa) r ∧
      (∃ t, exec (.b58dec sd sa) s = .next t ∧ WritesS sd r s t) ∧
      ∀ n ≤ 255, ∃ t, exec (.b58decLen sd sa n) s = .next t ∧
        (r.length = n → WritesS sd r s t) ∧ (r.length ≠ n → WritesOnlyErr .lengthMismatchError s t)) ∧
    (¬ AllDigits (s.readS sa) →
      (∃ t, exec (.b58dec sd sa) s = .next t ∧ WritesOnlyErr .badDigit s t) ∧
      ∀ n ≤ 255, ∃ t, exec (.b58decLen sd sa n) s = .next t ∧ WritesOnlyErr .badDigit s t)

/-- A base-58 text decodes to one byte string only. -/
def Obligations.TextDecodesToOneByteString : Prop :=
  ∀ text r r' : Bytes, DecodesTo text r → DecodesTo text r' → r = r'

/-- R189, R188: `B58ADDR` of a text of 25 decoded bytes whose checksum is right writes payload and version; a wrong
checksum, another length and a character that is no digit are errors, in that order of priority from the last. -/
def Obligations.B58addrVerifiesAndSplitsTheAddress : Prop :=
  ∀ (sd sa : SIdx) (s : State),
    Spells (.b58addr sd sa) 0x41 sd.val sa.val 0 0 0 ∧
    (∀ r : Bytes, DecodesTo (s.readS sa) r →
      ∃ t, exec (.b58addr sd sa) s = .next t ∧
        (r.length ≠ 25 → WritesOnlyErr .lengthMismatchError s t) ∧
        (r.length = 25 → ¬ PassesCheck sha256Port r → WritesOnlyErr .checksumError s t) ∧
        (PassesCheck sha256Port r → ∃ version, r[0]? = some version ∧ WritesAddr sd version (slice r 1 20) s t)) ∧
    (¬ AllDigits (s.readS sa) → ∃ t, exec (.b58addr sd sa) s = .next t ∧ WritesOnlyErr .badDigit s t)

/-- R187, R186: `DHASH` writes SHA256 of the 32 bytes that SHA256 of the source is, for a source of any length. -/
def Obligations.DhashWritesTheDoubleHash : Prop :=
  ∀ (sd sa : SIdx) (s : State),
    Spells (.dhash sd sa) 0x42 sd.val sa.val 0 0 0 ∧
    ∃ t, exec (.dhash sd sa) s = .next t ∧ WritesS sd (sha256Port (sha256Port (s.readS sa)).toList).toList s t

/-- R193: the decoded bytes are never more than the characters of the text. -/
def Obligations.DecodedTextIsNoLongerThanTheText : Prop :=
  ∀ text r : Bytes, decode text none = .ok r → r.length ≤ text.length

/-- R192: decoding inverts the helper encode on every byte string, and encode inverts decoding on every text of digits. -/
def Obligations.Base58RoundTrip : Prop :=
  (∀ b : Bytes, decode (encode58 b) none = .ok b) ∧
  ∀ text r : Bytes, decode text none = .ok r → encode58 r = text

/-- R191: for every SHA256, version and 20-byte payload, the address built from them decodes to them. -/
def Obligations.AddressRoundTrip : Prop :=
  ∀ (sha : HashFn) (v : Byte) (p : Bytes), p.length = 20 →
    decodeAddress sha (encode58 ([v] ++ p ++ first 4 (doubleHash sha ([v] ++ p)))) = .ok (v, p)

/-- R190: for every SHA256, changing a checksum byte of 25 good bytes always gives a ChecksumError, and changing any other
byte gives one unless the new bytes hash to the old checksum. -/
def Obligations.ChangedAddressByteFailsTheChecksum : Prop :=
  ∀ (sha : HashFn) (r : Bytes) (k : Nat) (x : Byte), PassesCheck sha r → k < 25 → r[k]? ≠ some x →
    (k < 21 → first 4 (doubleHash sha (first 21 (r.set k x))) ≠ slice r 21 4) →
    decodeAddress sha (encode58 (r.set k x)) = .error .checksumError

/-! ## AddressScript (spec/44_addressscript.md) -/

/-- R211, R210: `P2PKH` of 20 bytes writes 76 a9 14, the bytes, 88 ac; any other length is a LengthError. -/
def Obligations.P2pkhWritesTheScript : Prop :=
  ∀ (sd sa : SIdx) (s : State),
    Spells (.p2pkh sd sa) 0x50 sd.val sa.val 0 0 0 ∧
    ((s.readS sa).length = 20 → ∃ t script, exec (.p2pkh sd sa) s = .next t ∧ WritesS sd script s t ∧
      script.length = 25 ∧ script = [0x76#8, 0xA9#8, 0x14#8] ++ s.readS sa ++ [0x88#8, 0xAC#8]) ∧
    ((s.readS sa).length ≠ 20 → ∃ t, exec (.p2pkh sd sa) s = .next t ∧ WritesOnlyErr .lengthError s t)

/-- R213: `ADDRSCR` of a good address writes the script of its payload and does not write AVER; every failure of the
decoding is an InvalidAddressError. It succeeds exactly when `B58ADDR` of the same source does, and then its result is that
of `B58ADDR sx, sa` followed by `P2PKH sd, sx`. -/
def Obligations.AddrscrWritesTheScriptOfTheAddress : Prop :=
  ∀ (sd sa : SIdx) (s : State),
    Spells (.addrscr sd sa) 0x51 sd.val sa.val 0 0 0 ∧
    (∀ r : Bytes, DecodesTo (s.readS sa) r → PassesCheck sha256Port r →
      ∃ t, exec (.addrscr sd sa) s = .next t ∧
        WritesS sd ([0x76#8, 0xA9#8, 0x14#8] ++ slice r 1 20 ++ [0x88#8, 0xAC#8]) s t) ∧
    ((∀ r : Bytes, DecodesTo (s.readS sa) r → ¬ PassesCheck sha256Port r) →
      ∃ t, exec (.addrscr sd sa) s = .next t ∧ WritesOnlyErr .invalidAddressError s t) ∧
    ∀ (sx : SIdx) (t t1 : State), exec (.addrscr sd sa) s = .next t → exec (.b58addr sx sa) s = .next t1 →
      (t.regs.status.err = .ok ↔ t1.regs.status.err = .ok) ∧
      (t1.regs.status.err = .ok → ∃ t2, exec (.p2pkh sd sx) t1 = .next t2 ∧ t2.regs.status.err = .ok ∧
        t2.readS sd = t.readS sd)

/-- R214: the script has 25 bytes, begins 76 a9 14 and ends 88 ac, and two different hashes give two different scripts. -/
def Obligations.ScriptHasItsShapeAndIsInjective : Prop :=
  (∀ h script : Bytes, payToPubkeyHash h = .ok script →
    script.length = 25 ∧ first 3 script = [0x76#8, 0xA9#8, 0x14#8] ∧ slice script 3 20 = h ∧
      slice script 23 2 = [0x88#8, 0xAC#8]) ∧
  ∀ h h' script : Bytes, payToPubkeyHash h = .ok script → payToPubkeyHash h' = .ok script → h = h'

/-! ## HashOracle (spec/45_hashoracle.md) -/

/-- R222: `POWH` of 80 bytes writes POW_HASH of them; any other length is a LengthError. -/
def Obligations.PowhWritesTheOraclesDigest : Prop :=
  ∀ (sd sa : SIdx) (s : State),
    Spells (.powh sd sa) 0x60 sd.val sa.val 0 0 0 ∧
    (∀ h : Vector Byte 80, s.readS sa = h.toList →
      ∃ t, exec (.powh sd sa) s = .next t ∧ WritesS sd (Config.powHash h).toList s t) ∧
    ((s.readS sa).length ≠ 80 → ∃ t, exec (.powh sd sa) s = .next t ∧ WritesOnlyErr .lengthError s t)

/-- R225, R100: the share flow. With two different u registers and DIFF at least 1 the six commands of CHKSHARE all succeed,
and FLAG ends 1 exactly when fromBytesLE(POW_HASH(chunkswap80(serialize(fields)))) ≤ MAX_TARGET div DIFF; with DIFF = 0 the
first four succeed and the fifth reports RangeError. -/
def Obligations.ShareFlowAcceptsExactlyGoodShares : Prop :=
  ∀ (sx sy : SIdx) (ua ub : UIdx) (s : State), ua ≠ ub →
    (∀ n, 1 ≤ n → n ≤ 6 → n ≤ 4 ∨ s.regs.diff ≠ 0#64 →
      ∃ p, execAll ((chkshare sx sy ua ub).take n) s = .next p ∧ p.regs.status.err = .ok) ∧
    (s.regs.diff ≠ 0#64 →
      ∃ (t : State) (w : Vector Byte 80) (hash : Uint256),
        execAll (chkshare sx sy ua ub) s = .next t ∧
        chunkswap80 (serializeRegs s.regs) = .ok w.toList ∧ fromBytesLE (Config.powHash w).toList = .ok hash ∧
        (sx ≠ sy → t.readS sx = w.toList) ∧ t.readS sy = (Config.powHash w).toList ∧ t.readU ua = hash ∧
        (t.readU ub).toNat = Config.maxTarget.toNat / s.regs.diff.toNat ∧ KeepsRest s t ∧
        (t.regs.status.flag = true ↔ hash.toNat ≤ Config.maxTarget.toNat / s.regs.diff.toNat)) ∧
    (s.regs.diff = 0#64 →
      ∃ p, execAll ((chkshare sx sy ua ub).take 5) s = .next p ∧ p.regs.status.err = .rangeError)

/-! ## SHA-256 (spec/46_sha256_reference.md) and the reset state (spec/70_reset_and_hazards.md) -/

/-- R236: a padded message is whole 64-byte blocks: the message, the byte 80, fewer than 64 zero bytes, and the length in
bits as 8 big-endian bytes. The function is the model's default for the parameter (log 7). -/
def Obligations.PaddingFillsWholeBlocks : Prop :=
  ∀ m : Bytes, ∃ z < 64, shaPad m = m ++ [0x80#8] ++ rep 0#8 z ++ be 8 (8 * m.length) ∧ (shaPad m).length % 64 = 0

/-- R281: what each command does straight after reset. -/
def Obligations.CommandsStraightAfterReset : Prop :=
  (∀ sd, ∃ t, exec (.hser sd) State.reset = .next t ∧ WritesS sd (rep 0#8 80) State.reset t) ∧
  (∀ sd ua, ∃ t, exec (.tole sd ua) State.reset = .next t ∧ WritesS sd (rep 0#8 32) State.reset t) ∧
  (∀ sd ua, ∃ t, exec (.tobew sd ua) State.reset = .next t ∧ WritesS sd (rep 0#8 32) State.reset t) ∧
  (∀ ua ub, ∃ t, exec (.meets ua ub) State.reset = .next t ∧ WritesFlag true State.reset t) ∧
  (∀ ud, ∃ t, exec (.totgt ud) State.reset = .next t ∧ WritesOnlyErr .rangeError State.reset t) ∧
  (∀ ud sa, ∃ t, exec (.fromle ud sa) State.reset = .next t ∧ WritesOnlyErr .lengthError State.reset t) ∧
  (∀ sd sa, ∃ t, exec (.wswap sd sa) State.reset = .next t ∧ WritesOnlyErr .lengthError State.reset t) ∧
  (∀ sd sa, ∃ t, exec (.powh sd sa) State.reset = .next t ∧ WritesOnlyErr .lengthError State.reset t) ∧
  (∀ sd sa, ∃ t, exec (.p2pkh sd sa) State.reset = .next t ∧ WritesOnlyErr .lengthError State.reset t) ∧
  (∀ sd sa, ∃ t, exec (.rhwg sd sa) State.reset = .next t ∧ WritesOnlyErr .formatError State.reset t) ∧
  (∀ sd sa, ∃ t, exec (.b58dec sd sa) State.reset = .next t ∧ WritesS sd [] State.reset t) ∧
  (∀ sd sa, ∃ t, exec (.b58decLen sd sa 0) State.reset = .next t ∧ WritesS sd [] State.reset t) ∧
  (∀ sd sa, ∃ t, exec (.b58addr sd sa) State.reset = .next t ∧ WritesOnlyErr .lengthMismatchError State.reset t) ∧
  (∀ sd sa, ∃ t, exec (.addrscr sd sa) State.reset = .next t ∧ WritesOnlyErr .invalidAddressError State.reset t) ∧
  ∀ sd sa, ∃ t, exec (.dhash sd sa) State.reset = .next t ∧ WritesS sd (doubleHash sha256Port []) State.reset t

/-! ## The parameters (spec/00_scope.md R8, spec/10_state.md R29, spec/46_sha256_reference.md R235) -/

/-- R8, R29, R235: for every CAP, MAX_TARGET, SHA256 and POW_HASH, what the commands that name one do, and which strings the
host may write to an s register; the other commands take none of them, and the machine is the core at `machineParams`. -/
def Obligations.CoreFollowsItsParameters : Prop :=
  (∀ (i : Instr) (s : State), exec i s = execWith machineParams i s) ∧ (∀ s : State, step s = stepWith machineParams s) ∧
  ∀ (p : Params) (s : State),
    (80 ≤ p.cap ∧ p.cap ≤ 255 ∧ 0 < p.maxTarget.toNat) ∧
    (∀ i : Instr, usesParams i = false → execWith p i s = exec i s) ∧
    (∀ (i : SIdx) (b : Bytes),
      (b.length ≤ p.cap → hostActWith p (.write (0x10 + i.val) (.bytes b)) s = .next (s.writeS i b)) ∧
      (p.cap < b.length → hostActWith p (.write (0x10 + i.val) (.bytes b)) s = .refused (.illTyped (0x10 + i.val)))) ∧
    (∀ ud : UIdx,
      (s.regs.diff ≠ 0#64 → ∃ t v, execWith p (.totgt ud) s = .next t ∧ WritesU ud v s t ∧
        v.toNat = p.maxTarget.toNat / s.regs.diff.toNat) ∧
      (s.regs.diff = 0#64 → ∃ t, execWith p (.totgt ud) s = .next t ∧ WritesOnlyErr .rangeError s t)) ∧
    ∀ sd sa : SIdx,
      (∃ t, execWith p (.dhash sd sa) s = .next t ∧
        WritesS sd (p.sha256 (p.sha256 (s.readS sa)).toList).toList s t) ∧
      (∀ h : Vector Byte 80, s.readS sa = h.toList →
        ∃ t, execWith p (.powh sd sa) s = .next t ∧ WritesS sd (p.powHash h).toList s t) ∧
      ((s.readS sa).length ≠ 80 → ∃ t, execWith p (.powh sd sa) s = .next t ∧ WritesOnlyErr .lengthError s t) ∧
      (∀ r : Bytes, DecodesTo (s.readS sa) r →
        ∃ t t', execWith p (.b58addr sd sa) s = .next t ∧ execWith p (.addrscr sd sa) s = .next t' ∧
          (r.length ≠ 25 → WritesOnlyErr .lengthMismatchError s t) ∧
          (r.length = 25 → ¬ PassesCheck p.sha256 r → WritesOnlyErr .checksumError s t) ∧
          (¬ PassesCheck p.sha256 r → WritesOnlyErr .invalidAddressError s t') ∧
          (PassesCheck p.sha256 r →
            (∃ version, r[0]? = some version ∧ WritesAddr sd version (slice r 1 20) s t) ∧
            WritesS sd ([0x76#8, 0xA9#8, 0x14#8] ++ slice r 1 20 ++ [0x88#8, 0xAC#8]) s t')) ∧
      (¬ AllDigits (s.readS sa) →
        ∃ t t', execWith p (.b58addr sd sa) s = .next t ∧ execWith p (.addrscr sd sa) s = .next t' ∧
          WritesOnlyErr .badDigit s t ∧ WritesOnlyErr .invalidAddressError s t')
end

