-- ==== Sys2Proof/Laws/Bytes.lean ====
section
/-! SUPPORT. The byte-string notation of Machine/Bytes.lean and the rearrangements built on it, read position by position:
lengths, bytes at an index, and the two readings of a string as a number. -/

namespace Sys2Proof.Machine

/-! ## Strings given position by position -/

@[simp] theorem length_map_range {n : Nat} (f : Nat → Byte) : ((List.range n).map f).length = n := by simp

theorem getElem?_map_range {n i : Nat} (f : Nat → Byte) (h : i < n) : ((List.range n).map f)[i]? = some (f i) := by
  simp [h]

@[simp] theorem length_rearrange (n : Nat) (f : Nat → Nat) (b : Bytes) : (rearrange n f b).length = n := by
  simp [rearrange]

theorem getElem?_rearrange {n i : Nat} (f : Nat → Nat) (b : Bytes) (h : i < n) (hb : f i < b.length) :
    (rearrange n f b)[i]? = b[f i]? := by
  simp [rearrange, h, hb]

/-- Two strings of n bytes that agree at every index below n are equal. -/
theorem ext_below {n : Nat} {a b : Bytes} (ha : a.length = n) (hb : b.length = n) (h : ∀ i < n, a[i]? = b[i]?) : a = b := by
  apply List.ext_getElem?
  intro i
  by_cases hi : i < n
  · exact h i hi
  · rw [List.getElem?_eq_none (by omega), List.getElem?_eq_none (by omega)]

/-- A rearrangement by g after one by f takes the byte at f (g i), where both stay inside the string. -/
theorem rearrange_rearrange (n : Nat) (f g : Nat → Nat) (b : Bytes) (hb : b.length = n) (hf : ∀ i < n, f i < n)
    (hg : ∀ i < n, g i < n) (hid : ∀ i < n, f (g i) = i) : rearrange n g (rearrange n f b) = b := by
  refine ext_below (n := n) (by simp) hb fun i hi => ?_
  rw [getElem?_rearrange g _ hi (by simpa using hg i hi), getElem?_rearrange f _ (hg i hi) (by rw [hb]; exact hf _ (hg i hi)),
    hid i hi]

@[simp] theorem length_be (n v : Nat) : (be n v).length = n := by simp [be]
@[simp] theorem length_le (n v : Nat) : (le n v).length = n := by simp [le]
@[simp] theorem length_toBytesLE (u : Uint256) : (toBytesLE u).length = 32 := by simp [toBytesLE]
@[simp] theorem length_toBytesBEWordwise (u : Uint256) : (toBytesBEWordwise u).length = 32 := by simp [toBytesBEWordwise]
@[simp] theorem length_rep (x : Byte) (n : Nat) : (rep x n).length = n := by simp [rep]

theorem getElem?_toBytesLE (u : Uint256) {i : Nat} (h : i < 32) :
    (toBytesLE u)[i]? = some (u.extractLsb' (8 * i) 8) := getElem?_map_range _ h

theorem getElem?_toBytesBEWordwise (u : Uint256) {p : Nat} (h : p < 32) :
    (toBytesBEWordwise u)[p]? = some (u.extractLsb' (32 * (p / 4) + 8 * (3 - p % 4)) 8) :=
  getElem?_map_range (fun p => u.extractLsb' (32 * (p / 4) + 8 * (3 - p % 4)) 8) h

theorem getElem?_be (n v : Nat) {i : Nat} (h : i < n) : (be n v)[i]? = some (BitVec.ofNat 8 (v / 2 ^ (8 * (n - 1 - i)))) :=
  getElem?_map_range (fun i => BitVec.ofNat 8 (v / 2 ^ (8 * (n - 1 - i)))) h

theorem getElem?_le (n v : Nat) {i : Nat} (h : i < n) : (le n v)[i]? = some (BitVec.ofNat 8 (v / 2 ^ (8 * i))) :=
  getElem?_map_range (fun i => BitVec.ofNat 8 (v / 2 ^ (8 * i))) h

/-- A byte of a number, as bits. -/
theorem ofNat_div_eq_extractLsb' {w : Nat} (x : BitVec w) (k : Nat) :
    BitVec.ofNat 8 (x.toNat / 2 ^ k) = x.extractLsb' k 8 := by
  apply BitVec.eq_of_toNat_eq
  simp [BitVec.extractLsb'_toNat, Nat.shiftRight_eq_div_pow]

/-! ## The chunk swap -/

theorem chunkSource_lt {n i : Nat} (hn : n % 4 = 0) (h : i < n) : chunkSource i < n := by
  unfold chunkSource; omega

theorem chunkSource_chunkSource (i : Nat) : chunkSource (chunkSource i) = i := by
  unfold chunkSource; omega

@[simp] theorem length_chunkswap4 (b : Bytes) : (chunkswap4 b).length = b.length := by simp [chunkswap4]

theorem getElem?_chunkswap4 (b : Bytes) (hb : b.length % 4 = 0) {i : Nat} (h : i < b.length) :
    (chunkswap4 b)[i]? = b[chunkSource i]? :=
  getElem?_rearrange _ _ h (chunkSource_lt hb h)

/-! ## Reading a string as a number -/

@[simp] theorem leval_nil : leval [] = 0 := rfl
@[simp] theorem leval_cons (x : Byte) (b : Bytes) : leval (x :: b) = x.toNat + 256 * leval b := rfl
@[simp] theorem beval_nil : beval [] = 0 := rfl

theorem beval_append (a b : Bytes) : beval (a ++ b) = beval a * 256 ^ b.length + beval b := by
  induction b using List.reverseRecOn with
  | nil => simp
  | append_singleton b x ih =>
    rw [← List.append_assoc]
    simp only [beval, List.foldl_append, List.foldl_cons, List.foldl_nil, List.length_append, List.length_cons,
      List.length_nil] at ih ⊢
    rw [ih]; ring

theorem beval_cons (x : Byte) (b : Bytes) : beval (x :: b) = x.toNat * 256 ^ b.length + beval b := by
  have := beval_append [x] b
  simpa [beval] using this

theorem beval_lt (b : Bytes) : beval b < 256 ^ b.length := by
  induction b with
  | nil => simp
  | cons x b ih =>
    rw [beval_cons, List.length_cons, pow_succ]
    have := x.isLt
    nlinarith

theorem leval_lt (b : Bytes) : leval b < 256 ^ b.length := by
  induction b with
  | nil => simp
  | cons x b ih =>
    rw [leval_cons, List.length_cons, pow_succ]
    have := x.isLt
    omega

/-- The byte of a little-endian number at index i is the byte of its string there. -/
theorem leval_div_mod (b : Bytes) (i : Nat) (h : i < b.length) : leval b / 256 ^ i % 256 = b[i].toNat := by
  induction b generalizing i with
  | nil => simp at h
  | cons x b ih =>
    have hx := x.isLt
    cases i with
    | zero => simp; omega
    | succ i =>
      have : leval (x :: b) / 256 ^ (i + 1) = leval b / 256 ^ i := by
        rw [pow_succ', ← Nat.div_div_eq_div_mul, leval_cons]
        congr 1; omega
      rw [this, ih i (by simpa using h)]
      simp

@[simp] theorem beval_replicate_zero (z : Nat) : beval (rep 0#8 z) = 0 := by
  induction z with
  | zero => rfl
  | succ z ih =>
    have : rep 0#8 (z + 1) = 0#8 :: rep 0#8 z := rfl
    rw [this, beval_cons, ih]; simp

/-- A string of fixed length is determined by its big-endian number. -/
theorem beval_injective {a b : Bytes} (h : a.length = b.length) (hv : beval a = beval b) : a = b := by
  induction a generalizing b with
  | nil => cases b with
    | nil => rfl
    | cons => simp at h
  | cons x a ih =>
    cases b with
    | nil => simp at h
    | cons y b =>
      simp only [List.length_cons, Nat.add_right_cancel_iff] at h
      rw [beval_cons, beval_cons, h] at hv
      have ha := beval_lt a
      have hb := beval_lt b
      rw [h] at ha
      have hpos : 0 < 256 ^ b.length := by positivity
      have hxy : x.toNat = y.toNat := by
        have h1 : (x.toNat * 256 ^ b.length + beval a) / 256 ^ b.length = x.toNat := by
          rw [Nat.add_comm, Nat.add_mul_div_right _ _ hpos, Nat.div_eq_of_lt ha, Nat.zero_add]
        have h2 : (y.toNat * 256 ^ b.length + beval b) / 256 ^ b.length = y.toNat := by
          rw [Nat.add_comm, Nat.add_mul_div_right _ _ hpos, Nat.div_eq_of_lt hb, Nat.zero_add]
        rw [← h1, hv, h2]
      rw [BitVec.eq_of_toNat_eq hxy, ih h (by rw [hxy] at hv; omega)]

/-- The big-endian string of n bytes spells the number modulo 256^n. -/
theorem beval_be (n v : Nat) : beval (be n v) = v % 256 ^ n := by
  induction n generalizing v with
  | zero => simp [be, Nat.mod_one]
  | succ n ih =>
    have hsplit : be (n + 1) v = be n (v / 256) ++ [BitVec.ofNat 8 v] := by
      refine ext_below (n := n + 1) (by simp) (by simp) fun i hi => ?_
      rw [getElem?_be _ _ hi]
      by_cases h : i < n
      · rw [List.getElem?_append_left (by simpa using h), getElem?_be _ _ h, Nat.div_div_eq_div_mul]
        have : 256 * 2 ^ (8 * (n - 1 - i)) = 2 ^ (8 * (n + 1 - 1 - i)) := by
          rw [show 8 * (n + 1 - 1 - i) = 8 + 8 * (n - 1 - i) by omega, pow_add]; norm_num
        rw [this]
      · have : i = n := by omega
        subst this
        simp
    rw [hsplit, beval_append, ih]
    simp only [beval, List.foldl_cons, List.foldl_nil, List.length_cons, List.length_nil, BitVec.toNat_ofNat]
    rw [pow_succ' 256 n, Nat.mod_mul]
    norm_num
    ring

end Sys2Proof.Machine
end

