-- ==== Sys2Proof/Laws/Base58.lean ====
section
/-! SUPPORT. What base58 decoding does, once: the minimal bytes of a number, the number of a text, its leading '1's, and
`decode` in the declarative terms of Sys2Proof/Safety.lean. -/

namespace Sys2Proof.Machine

/-! ## Minimal big-endian bytes -/

theorem lt_pow_byteCount (n : Nat) : n < 256 ^ byteCount n := by
  unfold byteCount
  split
  · omega
  · rename_i h
    have := Nat.lt_log2_self (n := n)
    rw [show (256:ℕ) = 2^8 by norm_num, ← pow_mul]
    exact lt_of_lt_of_le this (Nat.pow_le_pow_right (by norm_num) (by omega))

theorem pow_byteCount_le (n : Nat) (h : n ≠ 0) : 256 ^ (byteCount n - 1) ≤ n := by
  unfold byteCount
  rw [if_neg h]
  have := Nat.log2_self_le h
  rw [show (256:ℕ) = 2^8 by norm_num, ← pow_mul]
  exact le_trans (Nat.pow_le_pow_right (by norm_num) (by omega)) this

theorem beval_minbytes (n : Nat) : beval (minbytes n) = n := by
  rw [minbytes, beval_be, Nat.mod_eq_of_lt (lt_pow_byteCount n)]

theorem length_minbytes (n : Nat) : (minbytes n).length = byteCount n := by simp [minbytes]

theorem byteCount_le {n : Nat} {m : Nat} (h : n < 256 ^ m) : byteCount n ≤ m := by
  by_cases h0 : n = 0
  · simp [byteCount, h0]
  · by_contra hlt
    have := pow_byteCount_le n h0
    have h2 : 256 ^ m ≤ 256 ^ (byteCount n - 1) := Nat.pow_le_pow_right (by norm_num) (by omega)
    omega

theorem length_of_head_ne_zero {b : Bytes} (h : b.head? ≠ some 0#8) : b.length = byteCount (beval b) := by
  apply le_antisymm
  · cases b with
    | nil => simp
    | cons x b =>
      rw [beval_cons]
      have hx : 1 ≤ x.toNat := by
        by_contra hc
        apply h; simp
        apply BitVec.eq_of_toNat_eq; simp; omega
      by_contra hlt
      simp at hlt
      have h1 := lt_pow_byteCount (x.toNat * 256 ^ b.length + beval b)
      have h2 : 256 ^ (byteCount (x.toNat * 256 ^ b.length + beval b)) ≤ 256 ^ b.length := Nat.pow_le_pow_right (by norm_num) (by omega)
      have : 256 ^ b.length ≤ x.toNat * 256 ^ b.length := Nat.le_mul_of_pos_left _ hx
      omega
  · exact byteCount_le (beval_lt b)

theorem isMinBytes_unique {n : Nat} {m : Bytes} (h : IsMinBytes n m) : m = minbytes n := by
  apply beval_injective
  · rw [length_of_head_ne_zero h.2, h.1, length_minbytes]
  · rw [h.1, beval_minbytes]

theorem isMinBytes_minbytes (n : Nat) : IsMinBytes n (minbytes n) := by
  refine ⟨beval_minbytes n, fun h => ?_⟩
  have h1 := length_minbytes n
  have h2 := beval_minbytes n
  cases hm : minbytes n with
  | nil => simp [hm] at h
  | cons x b =>
    rw [hm] at h h1 h2
    simp at h
    rw [beval_cons, h] at h2
    have := beval_lt b
    have h3 : n < 256 ^ b.length := by simpa [← h2] using this
    have := byteCount_le h3
    simp at h1; omega

/-! ## The text of a number -/

theorem digitVals_isSome_iff (t : Bytes) : (digitVals t).isSome = true ↔ AllDigits t := by
  induction t with
  | nil => simp [digitVals, AllDigits]
  | cons c t ih =>
    simp only [AllDigits, List.mem_cons, forall_eq_or_imp] at ih ⊢
    rw [← ih]
    cases h1 : digitVal c <;> cases h2 : digitVals t <;> simp [digitVals, h1, h2]

theorem digitVals_eq {t : Bytes} {vs : List Nat} (h : digitVals t = some vs) : vs = t.map (fun c => (digitVal c).getD 0) := by
  induction t generalizing vs with
  | nil => simp [digitVals] at h; simp [h]
  | cons c t ih =>
    cases h1 : digitVal c <;> cases h2 : digitVals t <;> simp [digitVals, h1, h2] at h
    subst h
    simp [h1, ih h2]

theorem base58Number_eq_sum (l : List Nat) : base58Number l = ∑ i ∈ Finset.range l.length, l.getD i 0 * 58 ^ (l.length - 1 - i) := by
  induction l using List.reverseRecOn with
  | nil => simp [base58Number]
  | append_singleton l x ih =>
    rw [base58Number, List.foldl_append]
    rw [base58Number] at ih
    rw [ih, List.length_append, List.length_singleton, Finset.sum_range_succ]
    simp only [List.foldl_cons, List.foldl_nil]
    congr 1
    · rw [Finset.sum_mul]
      apply Finset.sum_congr rfl
      intro i hi
      have hi := Finset.mem_range.1 hi
      rw [List.getD_eq_getElem?_getD, List.getD_eq_getElem?_getD, List.getElem?_append_left hi, mul_assoc, ← pow_succ]
      congr 2; omega
    · simp

theorem base58Number_map_digitVal (t : Bytes) : base58Number (t.map (fun c => (digitVal c).getD 0)) = textNumber t := by
  rw [base58Number_eq_sum, textNumber, List.length_map]
  apply Finset.sum_congr rfl
  intro i hi
  have hi := Finset.mem_range.1 hi
  congr 1
  simp [List.getD_eq_getElem?_getD, hi]

theorem hasLeadingOnes_leadingOnes (t : Bytes) : HasLeadingOnes t (leadingOnes t) := by
  unfold leadingOnes HasLeadingOnes
  induction t with
  | nil => simp
  | cons c t ih =>
    by_cases h : c = 0x31#8
    · subst h
      simp only [List.takeWhile_cons, beq_self_eq_true, if_true, List.length_cons]
      refine ⟨by omega, ?_, by simpa using ih.2.2⟩
      intro i hi
      cases i with
      | zero => simp
      | succ i => simpa using ih.2.1 i (by omega)
    · simp [h]

theorem hasLeadingOnes_unique {t : Bytes} {z z' : Nat} (h : HasLeadingOnes t z) (h' : HasLeadingOnes t z') : z = z' := by
  rcases Nat.lt_trichotomy z z' with hl | hl | hl
  · exact absurd (h'.2.1 z hl) h.2.2
  · exact hl
  · exact absurd (h.2.1 z' hl) h'.2.2

theorem decode_of_decodesTo {t r : Bytes} (h : DecodesTo t r) (e : Option Nat) :
    decode t e = match e with
      | none => .ok r
      | some n => if r.length ≠ n then .error .lengthMismatchError else .ok r := by
  obtain ⟨ha, z, m, hz, hm, rfl⟩ := h
  obtain ⟨vs, hv⟩ := Option.isSome_iff_exists.1 ((digitVals_isSome_iff t).2 ha)
  rw [decode, hv]
  simp only
  rw [digitVals_eq hv, base58Number_map_digitVal, ← isMinBytes_unique hm, hasLeadingOnes_unique (hasLeadingOnes_leadingOnes t) hz]
  all_goals rfl

theorem decode_of_badDigit {t : Bytes} (h : ¬ AllDigits t) (e : Option Nat) : decode t e = .error .badDigit := by
  have : digitVals t = none := by
    rw [← digitVals_isSome_iff] at h; simpa using h
  rw [decode, this]

theorem exists_decodesTo (t : Bytes) (h : AllDigits t) : ∃ r, DecodesTo t r := ⟨_, h, _, _, hasLeadingOnes_leadingOnes t, isMinBytes_minbytes _, rfl⟩

theorem decodesTo_of_decode_ok {t r : Bytes} {e} (h : decode t e = .ok r) : DecodesTo t r := by
  by_cases ha : AllDigits t
  · obtain ⟨r', hr⟩ := exists_decodesTo t ha
    have := decode_of_decodesTo hr e
    cases e with
    | none => rw [this] at h; simp at h; rwa [← h]
    | some n =>
      rw [this] at h; simp only at h
      split at h
      · simp at h
      · simp at h; rwa [← h]
  · rw [decode_of_badDigit ha] at h; simp at h

/-! ## An address, by what its text decodes to (R188) -/

section
variable {sha : HashFn} {t r : Bytes}

theorem decodeAddress_of_passesCheck (h : DecodesTo t r) (hp : PassesCheck sha r) :
    decodeAddress sha t = .ok (addrVersion r, addrPayload r) := by
  have hc : addrChecksum r = first 4 (doubleHash sha (first 21 r)) := hp.2
  simp only [decodeAddress, decode_of_decodesTo h, hp.1, hc, ne_eq, not_true_eq_false, if_false]

theorem decodeAddress_of_not_passesCheck (h : DecodesTo t r) (hl : r.length = 25) (hp : ¬ PassesCheck sha r) :
    decodeAddress sha t = .error .checksumError := by
  have hc : ¬ addrChecksum r = first 4 (doubleHash sha (first 21 r)) := fun hc => hp ⟨hl, hc⟩
  simp only [decodeAddress, decode_of_decodesTo h, hl, hc, ne_eq, not_true_eq_false, not_false_eq_true, if_false, if_true]

theorem decodeAddress_of_length_ne (h : DecodesTo t r) (hl : r.length ≠ 25) :
    decodeAddress sha t = .error .lengthMismatchError := by
  simp only [decodeAddress, decode_of_decodesTo h, hl, ne_eq, not_false_eq_true, if_true]

theorem decodeAddress_of_badDigit (h : ¬ AllDigits t) : decodeAddress sha t = .error .badDigit := by
  simp only [decodeAddress, decode_of_badDigit h]

end

end Sys2Proof.Machine
end

