-- ==== Sys2Proof/Laws/Decode.lean ====
section
/-! SUPPORT. The command word and its fields: a word is the sum of its fields, what each check of the decoder says, and the
opcode map read in the other direction. -/

namespace Sys2Proof

theorem opOfCode_some {n : Nat} {op : Op} (h : opOfCode n = some op) : op.code = n := by
  simpa using List.find?_some h

@[simp] theorem opOfCode_code (op : Op) : opOfCode op.code = some op := by
  cases op <;> rfl

/-- A word is its fields, each times its weight (R90). -/
theorem toNat_eq_fields (w : Word32) :
    w.toNat = (opcField w).toNat * 2 ^ 24 + (rdField w).toNat * 2 ^ 20 + (raField w).toNat * 2 ^ 16 +
      (rbField w).toNat * 2 ^ 12 + (zField w).toNat * 2 ^ 9 + (eField w).toNat * 2 ^ 8 + (elenField w).toNat := by
  have := w.isLt
  simp only [opcField, rdField, raField, rbField, zField, eField, elenField, BitVec.extractLsb'_toNat,
    Nat.shiftRight_eq_div_pow]
  omega

theorem le_three_of_checkField {v : BitVec 4} (h : checkField true v = none) : v.toNat ≤ 3 := by
  simp [checkField] at h; omega

theorem eq_zero_of_checkField {v : BitVec 4} (h : checkField false v = none) : v = 0#4 := by
  simpa [checkField] using h

theorem val_regIndex {v : BitVec 4} (h : checkField true v = none) : (regIndex v).val = v.toNat := by
  have := le_three_of_checkField h
  simp [regIndex]; omega

/-- A word with a known opcode passes exactly when every condition of R94 holds. -/
theorem firstIllegal_none {op : Op} {w : Word32} (h : firstIllegal op w = none) :
    zField w = 0#3 ∧ checkField op.usesRd (rdField w) = none ∧ checkField op.usesRa (raField w) = none ∧
      checkField op.usesRb (rbField w) = none ∧
      (if op.takesLength then ¬ (eField w = 0#1 ∧ elenField w ≠ 0#8) else (eField w = 0#1 ∧ elenField w = 0#8)) := by
  unfold firstIllegal at h
  split at h
  · simp at h
  · split at h <;> simp_all
    cases ht : op.takesLength <;> simp_all

end Sys2Proof
end

