-- ==== Sys2Proof/Laws/Parametric.lean ====
section
/-! SUPPORT. The machine is the core at `machineParams`: its commands, its host actions and its step. -/

namespace Sys2Proof.Machine

theorem exec_eq_execWith (i : Instr) (s : State) : exec i s = execWith machineParams i s := by
  cases i <;> rfl

theorem exec_eq : exec = execWith machineParams := by
  funext i s
  exact exec_eq_execWith i s

theorem hostAct_eq_hostActWith (a : HostAction) (s : State) : hostAct a s = hostActWith machineParams a s := by
  rw [hostAct, hostActWith, exec_eq]
  rfl

theorem step_eq_stepWith (s : State) : step s = stepWith machineParams s := by
  rw [step, hostStep, stepWith, exec_eq]
  rfl

end Sys2Proof.Machine
end

