-- ==== Sys2Proof/Laws/HostPort.lean ====
section
/-! SUPPORT. The host port: register numbers, host values and typed registers in both directions, and that no host action
looks at the actions still to come. -/

namespace Sys2Proof.Machine

/-! ## Register numbers (R30) -/

@[simp] theorem regOfNumber_number (r : RegName) : regOfNumber r.number = some r := by
  cases r with
  | u i => fin_cases i <;> decide
  | s i => fin_cases i <;> decide
  | _ => decide

theorem number_of_regOfNumber {n : Nat} {r : RegName} (h : regOfNumber n = some r) : r.number = n := by
  simpa using List.find?_some h

/-! ## Host values as typed register values (R62) -/

theorem toFixed_toList {n : Nat} (v : Vector Byte n) : toFixed n v.toList = some v := by
  simp [toFixed]; rfl

theorem toFixed_none {n : Nat} {b : Bytes} (h : b.length ≠ n) : toFixed n b = none := by simp [toFixed, h]

theorem asNumber_toNat {w : Nat} (v : BitVec w) : asNumber w (.num v.toNat) = some v := by simp [asNumber, v.isLt]

theorem asNumber_none {w n : Nat} (h : 2 ^ w ≤ n) : asNumber w (.num n) = none := by
  simp [asNumber]; exact h

theorem eq_of_asNumber {w : Nat} {v : RegValue} {x : BitVec w} (h : asNumber w v = some x) : v = .num x.toNat := by
  cases v with
  | bytes b => simp [asNumber] at h
  | num n =>
    simp only [asNumber] at h
    split at h
    · simp at h; subst h; simp [Nat.mod_eq_of_lt ‹_›]
    · simp at h

theorem eq_of_asFixed {n : Nat} {v : RegValue} {x : Vector Byte n} (h : asFixed n v = some x) : v = .bytes x.toList := by
  cases v with
  | num b => simp [asFixed] at h
  | bytes b =>
    simp only [asFixed, toFixed] at h
    split at h
    · simp at h; rw [Vector.toList, ← h]
    · simp at h

/-! ## Issuing a word, by what it decodes to (R94) -/

theorem hostIssue_of_ok {c : Word32} {i : Instr} (h : decodeWord c = .ok i) (s : State) : hostIssue c s = exec i s := by
  rw [hostIssue, hostIssueBy, h]

theorem hostIssue_of_error {c : Word32} (h : ∀ i, decodeWord c ≠ .ok i) (s : State) :
    hostIssue c s = .next (raise .illegalCommand s) := by
  cases hd : decodeWord c with
  | ok i => exact absurd hd (h i)
  | error e => rw [hostIssue, hostIssueBy, hd]

theorem hostActs_issue (c : Word32) (rest : List HostAction) (s : State) :
    hostActs (.issue c :: rest) s = match hostIssue c s with
      | .next t => hostActs rest t
      | .fault f => .fault f
      | .refused r => .refused r := rfl

/-! ## No action looks at the queue -/

/-- A result with another host queue. -/
def withQueue (q : List HostAction) : Result → Result
  | .next t => .next { t with hostQueue := q }
  | .fault f => .fault f
  | .refused r => .refused r

theorem execWith_withQueue (p : Params) (i : Instr) (s : State) (q : List HostAction) :
    execWith p i { s with hostQueue := q } = withQueue q (execWith p i s) := by
  cases i <;> simp only [execWith, execTole, execFromle, execTobew, execRhwg, execHser, execWswap, execTotgtWith, execMeets,
    execB58dec, execB58decLen, execB58addrWith, execDhashWith, execP2pkh, execAddrscrWith, execPowhWith, completeS,
    completeU, completeFlag, completeAddr, State.readU, State.readS] <;> (try split) <;> rfl

theorem exec_withQueue (i : Instr) (s : State) (q : List HostAction) :
    exec i { s with hostQueue := q } = withQueue q (exec i s) := by
  rw [exec_eq_execWith, exec_eq_execWith, execWith_withQueue]

/-- No host action looks at the queue, if executing a command does not. -/
theorem hostActBy_withQueue (cap : Nat) {run : Instr → State → Result}
    (hrun : ∀ (i : Instr) (s : State) (q : List HostAction), run i { s with hostQueue := q } = withQueue q (run i s))
    (a : HostAction) (s : State) (q : List HostAction) :
    hostActBy cap run a { s with hostQueue := q } = withQueue q (hostActBy cap run a s) := by
  have hi : ∀ c, hostIssueBy run c { s with hostQueue := q } = withQueue q (hostIssueBy run c s) := by
    intro c
    unfold hostIssueBy
    split
    · exact hrun _ _ _
    · rfl
  cases a with
  | read n =>
    simp only [hostActBy, hostRead]
    split
    · rfl
    · split <;> rfl
  | write n v =>
    simp only [hostActBy, hostWriteBy]
    split
    · rfl
    · rfl
    · split
      · exact hi _
      · rfl
    · split <;> rfl
  | issue c => exact hi c
  | reset => rfl

theorem hostAct_withQueue (a : HostAction) (s : State) (q : List HostAction) :
    hostAct a { s with hostQueue := q } = withQueue q (hostAct a s) :=
  hostActBy_withQueue _ exec_withQueue a s q

theorem hostActWith_withQueue (p : Params) (a : HostAction) (s : State) (q : List HostAction) :
    hostActWith p a { s with hostQueue := q } = withQueue q (hostActWith p a s) :=
  hostActBy_withQueue _ (execWith_withQueue p) a s q

end Sys2Proof.Machine
end

