-- ==== Sys2Proof/Laws/State.lean ====
section
/-! SUPPORT. One lemma per field per update of the state, so that no proof unfolds a record update, and what each shared
operation of Machine/Ops.lean can answer. -/

namespace Sys2Proof.Machine

/-! ## The register files -/

@[simp] theorem Bank.get_set_same {α : Type} (b : Bank α) (i : Fin 4) (v : α) : (b.set i v).get i = v := by
  fin_cases i <;> rfl

theorem Bank.get_set_other {α : Type} (b : Bank α) (i j : Fin 4) (v : α) (h : j ≠ i) : (b.set i v).get j = b.get j := by
  fin_cases i <;> fin_cases j <;> first | rfl | exact absurd rfl h

theorem Bank.ext_get {α : Type} (b b' : Bank α) (h : ∀ i, b.get i = b'.get i) : b = b' := by
  cases b; cases b'
  simp only [Bank.mk.injEq]
  exact ⟨h 0, h 1, h 2, h 3⟩

/-! ## Reading a register after an update of another field -/

section
variable (s : State) (i j : Fin 4) (v : Uint256) (b : Bytes) (c : ErrCode) (f : Bool) (a : Byte)

@[simp] theorem readU_writeU_same : (s.writeU i v).readU i = v := Bank.get_set_same _ _ _
theorem readU_writeU_other (h : j ≠ i) : (s.writeU i v).readU j = s.readU j := Bank.get_set_other _ _ _ _ h
@[simp] theorem readS_writeU : (s.writeU i v).readS j = s.readS j := rfl
@[simp] theorem readS_writeS_same : (s.writeS i b).readS i = b := Bank.get_set_same _ _ _
theorem readS_writeS_other (h : j ≠ i) : (s.writeS i b).readS j = s.readS j := Bank.get_set_other _ _ _ _ h
@[simp] theorem readU_writeS : (s.writeS i b).readU j = s.readU j := rfl
@[simp] theorem readU_setErr : (s.setErr c).readU j = s.readU j := rfl
@[simp] theorem readS_setErr : (s.setErr c).readS j = s.readS j := rfl
@[simp] theorem readU_setFlag : (s.setFlag f).readU j = s.readU j := rfl
@[simp] theorem readS_setFlag : (s.setFlag f).readS j = s.readS j := rfl
@[simp] theorem readU_setAver : (s.setAver a).readU j = s.readU j := rfl
@[simp] theorem readS_setAver : (s.setAver a).readS j = s.readS j := rfl

/-! ## The status fields after each update -/

@[simp] theorem err_setErr : (s.setErr c).regs.status.err = c := rfl
@[simp] theorem flag_setErr : (s.setErr c).regs.status.flag = s.regs.status.flag := rfl
@[simp] theorem aver_setErr : (s.setErr c).regs.status.aver = s.regs.status.aver := rfl
@[simp] theorem err_setFlag : (s.setFlag f).regs.status.err = s.regs.status.err := rfl
@[simp] theorem flag_setFlag : (s.setFlag f).regs.status.flag = f := rfl
@[simp] theorem aver_setFlag : (s.setFlag f).regs.status.aver = s.regs.status.aver := rfl
@[simp] theorem err_setAver : (s.setAver a).regs.status.err = s.regs.status.err := rfl
@[simp] theorem flag_setAver : (s.setAver a).regs.status.flag = s.regs.status.flag := rfl
@[simp] theorem aver_setAver : (s.setAver a).regs.status.aver = a := rfl
@[simp] theorem status_writeU : (s.writeU i v).regs.status = s.regs.status := rfl
@[simp] theorem status_writeS : (s.writeS i b).regs.status = s.regs.status := rfl

/-! ## The other registers and the host's side after each update -/

@[simp] theorem hversion_writeU : (s.writeU i v).regs.hversion = s.regs.hversion := rfl
@[simp] theorem hprev_writeU : (s.writeU i v).regs.hprev = s.regs.hprev := rfl
@[simp] theorem hmerkle_writeU : (s.writeU i v).regs.hmerkle = s.regs.hmerkle := rfl
@[simp] theorem htime_writeU : (s.writeU i v).regs.htime = s.regs.htime := rfl
@[simp] theorem hbits_writeU : (s.writeU i v).regs.hbits = s.regs.hbits := rfl
@[simp] theorem hnonce_writeU : (s.writeU i v).regs.hnonce = s.regs.hnonce := rfl
@[simp] theorem diff_writeU : (s.writeU i v).regs.diff = s.regs.diff := rfl
@[simp] theorem hostQueue_writeU : (s.writeU i v).hostQueue = s.hostQueue := rfl
@[simp] theorem lastRead_writeU : (s.writeU i v).lastRead = s.lastRead := rfl
@[simp] theorem hversion_writeS : (s.writeS i b).regs.hversion = s.regs.hversion := rfl
@[simp] theorem hprev_writeS : (s.writeS i b).regs.hprev = s.regs.hprev := rfl
@[simp] theorem hmerkle_writeS : (s.writeS i b).regs.hmerkle = s.regs.hmerkle := rfl
@[simp] theorem htime_writeS : (s.writeS i b).regs.htime = s.regs.htime := rfl
@[simp] theorem hbits_writeS : (s.writeS i b).regs.hbits = s.regs.hbits := rfl
@[simp] theorem hnonce_writeS : (s.writeS i b).regs.hnonce = s.regs.hnonce := rfl
@[simp] theorem diff_writeS : (s.writeS i b).regs.diff = s.regs.diff := rfl
@[simp] theorem hostQueue_writeS : (s.writeS i b).hostQueue = s.hostQueue := rfl
@[simp] theorem lastRead_writeS : (s.writeS i b).lastRead = s.lastRead := rfl
@[simp] theorem hversion_setErr : (s.setErr c).regs.hversion = s.regs.hversion := rfl
@[simp] theorem hprev_setErr : (s.setErr c).regs.hprev = s.regs.hprev := rfl
@[simp] theorem hmerkle_setErr : (s.setErr c).regs.hmerkle = s.regs.hmerkle := rfl
@[simp] theorem htime_setErr : (s.setErr c).regs.htime = s.regs.htime := rfl
@[simp] theorem hbits_setErr : (s.setErr c).regs.hbits = s.regs.hbits := rfl
@[simp] theorem hnonce_setErr : (s.setErr c).regs.hnonce = s.regs.hnonce := rfl
@[simp] theorem diff_setErr : (s.setErr c).regs.diff = s.regs.diff := rfl
@[simp] theorem hostQueue_setErr : (s.setErr c).hostQueue = s.hostQueue := rfl
@[simp] theorem lastRead_setErr : (s.setErr c).lastRead = s.lastRead := rfl
@[simp] theorem hversion_setFlag : (s.setFlag f).regs.hversion = s.regs.hversion := rfl
@[simp] theorem hprev_setFlag : (s.setFlag f).regs.hprev = s.regs.hprev := rfl
@[simp] theorem hmerkle_setFlag : (s.setFlag f).regs.hmerkle = s.regs.hmerkle := rfl
@[simp] theorem htime_setFlag : (s.setFlag f).regs.htime = s.regs.htime := rfl
@[simp] theorem hbits_setFlag : (s.setFlag f).regs.hbits = s.regs.hbits := rfl
@[simp] theorem hnonce_setFlag : (s.setFlag f).regs.hnonce = s.regs.hnonce := rfl
@[simp] theorem hversion_setAver : (s.setAver a).regs.hversion = s.regs.hversion := rfl
@[simp] theorem hprev_setAver : (s.setAver a).regs.hprev = s.regs.hprev := rfl
@[simp] theorem hmerkle_setAver : (s.setAver a).regs.hmerkle = s.regs.hmerkle := rfl
@[simp] theorem htime_setAver : (s.setAver a).regs.htime = s.regs.htime := rfl
@[simp] theorem hbits_setAver : (s.setAver a).regs.hbits = s.regs.hbits := rfl
@[simp] theorem hnonce_setAver : (s.setAver a).regs.hnonce = s.regs.hnonce := rfl
@[simp] theorem diff_setFlag : (s.setFlag f).regs.diff = s.regs.diff := rfl
@[simp] theorem hostQueue_setFlag : (s.setFlag f).hostQueue = s.hostQueue := rfl
@[simp] theorem lastRead_setFlag : (s.setFlag f).lastRead = s.lastRead := rfl
@[simp] theorem diff_setAver : (s.setAver a).regs.diff = s.regs.diff := rfl
@[simp] theorem hostQueue_setAver : (s.setAver a).hostQueue = s.hostQueue := rfl
@[simp] theorem lastRead_setAver : (s.setAver a).lastRead = s.lastRead := rfl

end

@[simp] theorem CmdError.code_ne_ok (e : CmdError) : e.code ≠ .ok := by cases e <;> decide

end Sys2Proof.Machine
end

