-- ==== Sys2Proof/Laws/Ops.lean ====
section
/-! SUPPORT. What each shared operation of Machine/Ops.lean can do, once: the effect of a success, the effect of a failure,
and that there is no third case. -/

namespace Sys2Proof.Machine

theorem writesOnlyErr_raise (e : CmdError) (s : State) : WritesOnlyErr e.code s (raise e s) where
  hversion := rfl
  hprev := rfl
  hmerkle := rfl
  htime := rfl
  hbits := rfl
  hnonce := rfl
  diff := rfl
  hostQueue := rfl
  lastRead := rfl
  allU _ := rfl
  allS _ := rfl
  err := rfl
  flag := rfl
  aver := rfl

theorem writesS_succeed (d : SIdx) (b : Bytes) (s : State) : WritesS d b s (succeed (s.writeS d b)) where
  hversion := rfl
  hprev := rfl
  hmerkle := rfl
  htime := rfl
  hbits := rfl
  hnonce := rfl
  diff := rfl
  hostQueue := rfl
  lastRead := rfl
  dest := by simp [succeed]
  otherS j h := by simp [succeed, readS_writeS_other _ _ _ _ h]
  allU _ := rfl
  err := rfl
  flag := rfl
  aver := rfl

theorem writesU_succeed (d : UIdx) (v : Uint256) (s : State) : WritesU d v s (succeed (s.writeU d v)) where
  hversion := rfl
  hprev := rfl
  hmerkle := rfl
  htime := rfl
  hbits := rfl
  hnonce := rfl
  diff := rfl
  hostQueue := rfl
  lastRead := rfl
  dest := by simp [succeed]
  otherU j h := by simp [succeed, readU_writeU_other _ _ _ _ h]
  allS _ := rfl
  err := rfl
  flag := rfl
  aver := rfl

theorem writesFlag_succeed (f : Bool) (s : State) : WritesFlag f s (succeed (s.setFlag f)) where
  hversion := rfl
  hprev := rfl
  hmerkle := rfl
  htime := rfl
  hbits := rfl
  hnonce := rfl
  diff := rfl
  hostQueue := rfl
  lastRead := rfl
  allU _ := rfl
  allS _ := rfl
  err := rfl
  flag := rfl
  aver := rfl

theorem writesAddr_succeed (d : SIdx) (v : Byte) (p : Bytes) (s : State) :
    WritesAddr d v p s (succeed ((s.writeS d p).setAver v)) where
  hversion := rfl
  hprev := rfl
  hmerkle := rfl
  htime := rfl
  hbits := rfl
  hnonce := rfl
  diff := rfl
  hostQueue := rfl
  lastRead := rfl
  dest := by simp [succeed]
  otherS j h := by simp [succeed, readS_writeS_other _ _ _ _ h]
  allU _ := rfl
  err := rfl
  flag := rfl
  aver := rfl

/-! Every completion answers a next state: of a success with the result written, or of a failure with the code written. -/

theorem completeS_cases (d : SIdx) (r : Except CmdError Bytes) (s : State) :
    ∃ t, completeS d r s = .next t ∧
      ((∃ b, r = .ok b ∧ WritesS d b s t) ∨ ∃ e : CmdError, r = .error e ∧ WritesOnlyErr e.code s t) := by
  cases r with
  | ok b => exact ⟨_, rfl, .inl ⟨b, rfl, writesS_succeed d b s⟩⟩
  | error e => exact ⟨_, rfl, .inr ⟨e, rfl, writesOnlyErr_raise e s⟩⟩

theorem completeU_cases (d : UIdx) (r : Except CmdError Uint256) (s : State) :
    ∃ t, completeU d r s = .next t ∧
      ((∃ v, r = .ok v ∧ WritesU d v s t) ∨ ∃ e : CmdError, r = .error e ∧ WritesOnlyErr e.code s t) := by
  cases r with
  | ok v => exact ⟨_, rfl, .inl ⟨v, rfl, writesU_succeed d v s⟩⟩
  | error e => exact ⟨_, rfl, .inr ⟨e, rfl, writesOnlyErr_raise e s⟩⟩

theorem completeFlag_spec (f : Bool) (s : State) : ∃ t, completeFlag f s = .next t ∧ WritesFlag f s t :=
  ⟨_, rfl, writesFlag_succeed f s⟩

theorem completeAddr_cases (d : SIdx) (r : Except CmdError (Byte × Bytes)) (s : State) :
    ∃ t, completeAddr d r s = .next t ∧
      ((∃ v p, r = .ok (v, p) ∧ WritesAddr d v p s t) ∨ ∃ e : CmdError, r = .error e ∧ WritesOnlyErr e.code s t) := by
  cases r with
  | ok vp => exact ⟨_, rfl, .inl ⟨vp.1, vp.2, rfl, writesAddr_succeed d vp.1 vp.2 s⟩⟩
  | error e => exact ⟨_, rfl, .inr ⟨e, rfl, writesOnlyErr_raise e s⟩⟩

end Sys2Proof.Machine
end

