-- ==== Sys2Proof/Laws/PerInstr.lean ====
section
/-! SUPPORT. A statement about every command as syntax, one lemma per constructor: the fields of its word. -/

namespace Sys2Proof.Laws.EncodeFields

set_option Elab.async false

/-- The word of a well-formed command has the command's opcode and operands in the fields of R90, and zero reserved bits. -/
def Statement (i : Instr) : Prop :=
  i.wellFormed = true →
    (opcField (encode i)).toNat = i.op.code ∧ (rdField (encode i)).toNat = i.rd ∧ (raField (encode i)).toNat = i.ra ∧
      (rbField (encode i)).toNat = i.rb ∧ zField (encode i) = 0#3 ∧ (eField (encode i)).toNat = i.e ∧
      (elenField (encode i)).toNat = i.elen

theorem tole (sd : SIdx) (ua : UIdx) : Statement (.tole sd ua) := by
  revert sd ua; unfold Statement; decide +kernel
theorem fromle (ud : UIdx) (sa : SIdx) : Statement (.fromle ud sa) := by
  revert ud sa; unfold Statement; decide +kernel
theorem tobew (sd : SIdx) (ua : UIdx) : Statement (.tobew sd ua) := by
  revert sd ua; unfold Statement; decide +kernel
theorem rhwg (sd sa : SIdx) : Statement (.rhwg sd sa) := by
  revert sd sa; unfold Statement; decide +kernel
theorem hser (sd : SIdx) : Statement (.hser sd) := by
  revert sd; unfold Statement; decide +kernel
theorem wswap (sd sa : SIdx) : Statement (.wswap sd sa) := by
  revert sd sa; unfold Statement; decide +kernel
theorem totgt (ud : UIdx) : Statement (.totgt ud) := by
  revert ud; unfold Statement; decide +kernel
theorem meets (ua ub : UIdx) : Statement (.meets ua ub) := by
  revert ua ub; unfold Statement; decide +kernel
theorem b58dec (sd sa : SIdx) : Statement (.b58dec sd sa) := by
  revert sd sa; unfold Statement; decide +kernel
theorem b58decLen (sd sa : SIdx) (n : Nat) : Statement (.b58decLen sd sa n) := by
  intro h
  have hn : n ≤ 255 := by simpa [Instr.wellFormed, expectedLengthFits] using h
  have all : ∀ (m : Fin 256) (sd sa : Fin 4), Statement (.b58decLen sd sa m.val) := by
    unfold Statement; decide +kernel
  exact all ⟨n, by omega⟩ sd sa h
theorem b58addr (sd sa : SIdx) : Statement (.b58addr sd sa) := by
  revert sd sa; unfold Statement; decide +kernel
theorem dhash (sd sa : SIdx) : Statement (.dhash sd sa) := by
  revert sd sa; unfold Statement; decide +kernel
theorem p2pkh (sd sa : SIdx) : Statement (.p2pkh sd sa) := by
  revert sd sa; unfold Statement; decide +kernel
theorem addrscr (sd sa : SIdx) : Statement (.addrscr sd sa) := by
  revert sd sa; unfold Statement; decide +kernel
theorem powh (sd sa : SIdx) : Statement (.powh sd sa) := by
  revert sd sa; unfold Statement; decide +kernel

end Sys2Proof.Laws.EncodeFields
end

