-- ==== Sys2Proof/Tests/Slice0.lean ====
section
/-! SUPPORT. The model's own tests. Expected values are those of spec/95_test_vectors.md and spec/46_sha256_reference.md
R240, or are written out by hand from the spec's rules; then one witness per hypothesis of a statement of
Sys2Proof/Certificates/Slice0/Obligations.lean. -/

namespace Sys2Proof.Tests

set_option Elab.async false

open Sys2Proof.Machine

/-! ## Helpers -/

/-- The n bytes that a hexadecimal number of 2n digits writes down, left to right. -/
def hex : Nat → Nat → Bytes
  | 0, _ => []
  | n + 1, v => hex n (v / 256) ++ [BitVec.ofNat 8 v]

/-- The reset state with one s register loaded. -/
def withS (i : SIdx) (b : Bytes) : State := State.reset.writeS i b

/-- The reset state with one u register loaded. -/
def withU (i : UIdx) (v : Uint256) : State := State.reset.writeU i v

/-- The reset state with `DIFF` loaded. -/
def withDiff (v : BitVec 64) : State := { State.reset with regs := { Regs.reset with diff := v } }

/-- The command gives a next state, and it has the property. -/
def after (i : Instr) (s : State) (p : State → Bool) : Bool :=
  match exec i s with
  | .next t => p t
  | .fault _ => false
  | .refused _ => false

/-- The host action gives a next state, and it has the property. -/
def afterAct (a : HostAction) (s : State) (p : State → Bool) : Bool :=
  match hostAct a s with
  | .next t => p t
  | .fault _ => false
  | .refused _ => false

/-- The word decodes to the command. -/
def reads (w : Word32) (i : Instr) : Bool :=
  match decodeWord w with
  | .ok j => j == i
  | .error _ => false

/-- The word is illegal for this reason. -/
def illegal (w : Word32) (e : Illegal) : Bool :=
  match decodeWord w with
  | .ok _ => false
  | .error e' => e' == e

/-! ## Well-formedness: its one check refuses an ill-formed term -/

theorem test_expected_length_255_fits : Instr.wellFormed (.b58decLen 0 1 255) = true := by decide
theorem test_expected_length_256_refused : Instr.wellFormed (.b58decLen 0 1 256) = false := by decide

/-! ## Decoding: words of R101 and of 95_test_vectors.md section 2.7, one line per constructor, and illegal words -/

theorem test_decode_tole : reads 0x10120000#32 (.tole 1 2) = true := by decide
theorem test_decode_fromle : reads 0x11010000#32 (.fromle 0 1) = true := by decide
theorem test_decode_tobew : reads 0x12200000#32 (.tobew 2 0) = true := by decide
theorem test_decode_rhwg : reads 0x13330000#32 (.rhwg 3 3) = true := by decide
theorem test_decode_hser : reads 0x20000000#32 (.hser 0) = true := by decide
theorem test_decode_wswap : reads 0x21310000#32 (.wswap 3 1) = true := by decide
theorem test_decode_totgt : reads 0x30100000#32 (.totgt 1) = true := by decide
theorem test_decode_meets : reads 0x31001000#32 (.meets 0 1) = true := by decide
theorem test_decode_b58dec : reads 0x40100000#32 (.b58dec 1 0) = true := by decide
theorem test_decode_b58decLen : reads 0x40100119#32 (.b58decLen 1 0 25) = true := by decide
theorem test_decode_b58addr : reads 0x41200000#32 (.b58addr 2 0) = true := by decide
theorem test_decode_dhash : reads 0x42100000#32 (.dhash 1 0) = true := by decide
theorem test_decode_p2pkh : reads 0x50320000#32 (.p2pkh 3 2) = true := by decide
theorem test_decode_addrscr : reads 0x51100000#32 (.addrscr 1 0) = true := by decide
theorem test_decode_powh : reads 0x60100000#32 (.powh 1 0) = true := by decide
theorem test_decode_b58decLen_zero : reads 0x40100100#32 (.b58decLen 1 0 0) = true := by decide
theorem test_decode_b58decLen_full : reads 0x403301ff#32 (.b58decLen 3 3 255) = true := by decide

theorem test_illegal_unknown_opcode : [0x00000000#32, 0xffffffff#32, 0x14000000#32, 0x22000000#32, 0x32000000#32, 0x43000000#32, 0x52000000#32, 0x61000000#32].all (illegal · .unknownOpcode) = true := by decide
theorem test_illegal_register_index : [0x10400000#32, 0x10080000#32, 0x31004000#32].all (illegal · .registerIndex) = true := by decide
theorem test_illegal_unused_field : [0x10001000#32, 0x20010000#32, 0x30001000#32, 0x31100000#32].all (illegal · .unusedField) = true := by decide
theorem test_illegal_unused_length : [0x10000100#32, 0x10000001#32, 0x41100119#32].all (illegal · .unusedLength) = true := by decide
theorem test_illegal_length_without_e : [0x40100005#32].all (illegal · .lengthWithoutE) = true := by decide
theorem test_illegal_reserved_bits : [0x10000200#32, 0x10000400#32, 0x10000800#32].all (illegal · .reservedBits) = true := by decide

theorem test_encode_spec_words : [encode (.tole 1 2), encode (.meets 0 1), encode (.b58decLen 1 0 25), encode (.powh 1 0)] =
    [0x10120000#32, 0x31001000#32, 0x40100119#32, 0x60100000#32] := by decide
theorem test_row_of_tole_is_the_tables : Instr.row (.tole 0 0) = ⟨"TOLE", 0x10000000#32, 0xFFCCFFFF#32⟩ := by decide
theorem test_decodeTableWord : decodeTableWord 32 0x40100119 = some (.b58decLen 1 0 25) ∧ decodeTableWord 32 0 = none := by decide
theorem test_withFetchWord_runs_first :
    step (State.reset.withFetchWord 32 0x30000000) = exec (.totgt 0) State.reset := by rfl
theorem test_asm_of_b58dec : Instr.asm (.b58decLen 1 0 25) = "B58DEC s1, s0, #25" := by decide +kernel

/-! ## One command each, on the vectors of 95_test_vectors.md sections 2.1 to 2.6 and 3.4 -/

theorem test_tole_mixed : after (.tole 1 0) (withU 0 0x000102030405060708090a0b0c0d0e0f101112131415161718191a1b1c1d1e1f#256)
    (fun t => t.readS 1 == hex 32 0x1f1e1d1c1b1a191817161514131211100f0e0d0c0b0a09080706050403020100) = true := by decide +kernel
theorem test_fromle_ascending : after (.fromle 0 1) (withS 1 (hex 32 0xa0a1a2a3a4a5a6a7a8a9aaabacadaeafb0b1b2b3b4b5b6b7b8b9babbbcbdbebf))
    (fun t => t.readU 0 == 0xbfbebdbcbbbab9b8b7b6b5b4b3b2b1b0afaeadacabaaa9a8a7a6a5a4a3a2a1a0#256) = true := by decide +kernel
theorem test_fromle_33_bytes : after (.fromle 0 1) (withS 1 (rep 0xff#8 33))
    (fun t => t.readU 0 == 0#256 && t.regs.status.err == .lengthError) = true := by decide +kernel
theorem test_tobew_mixed : after (.tobew 1 0) (withU 0 0x000102030405060708090a0b0c0d0e0f101112131415161718191a1b1c1d1e1f#256)
    (fun t => t.readS 1 == hex 32 0x1c1d1e1f18191a1b14151617101112130c0d0e0f08090a0b0405060700010203) = true := by decide +kernel
theorem test_rhwg_genesis : after (.rhwg 3 3) (withS 3 (hex 64 0x30303030303030303030313964363638396330383561653136353833316539333466663736336165343661326136633137326233663162363061386365323666))
    (fun t => t.readS 3 == hex 64 0x30613863653236663732623366316236343661326136633134666637363361653635383331653933396330383561653130303139643636383030303030303030) = true := by decide +kernel
theorem test_rhwg_63_characters : after (.rhwg 3 3) (withS 3 (rep 0x30#8 63))
    (fun t => t.readS 3 == rep 0x30#8 63 && t.regs.status.err == .formatError) = true := by decide +kernel

/-- The header fields of section 2.2, second row. -/
def headerState : State :=
  { State.reset with regs := { Regs.reset with
      hversion := 0xffffffff#32, hprev := Vector.ofFn fun i => BitVec.ofNat 8 i.val, hmerkle := 1#256,
      htime := #v[0x01#8, 0x02#8, 0x03#8, 0x04#8], hbits := 0xffffffff#32, hnonce := #v[0xaa#8, 0xbb#8, 0xcc#8, 0xdd#8] } }

theorem test_hser_fields : after (.hser 0) headerState
    (fun t => t.readS 0 == hex 80 0xffffffff000102030405060708090a0b0c0d0e0f101112131415161718191a1b1c1d1e1f000000010000000000000000000000000000000000000000000000000000000001020304ffffffffaabbccdd) = true := by decide +kernel
theorem test_wswap_ascending : after (.wswap 0 0) (withS 0 (hex 80 0x000102030405060708090a0b0c0d0e0f101112131415161718191a1b1c1d1e1f202122232425262728292a2b2c2d2e2f303132333435363738393a3b3c3d3e3f404142434445464748494a4b4c4d4e4f))
    (fun t => t.readS 0 == hex 80 0x03020100070605040b0a09080f0e0d0c13121110171615141b1a19181f1e1d1c23222120272625242b2a29282f2e2d2c33323130373635343b3a39383f3e3d3c43424140474645444b4a49484f4e4d4c) = true := by decide +kernel
theorem test_wswap_79_bytes : after (.wswap 1 0) (withS 0 (rep 0x11#8 79))
    (fun t => t.readS 1 == [] && t.regs.status.err == .lengthError) = true := by decide +kernel
theorem test_totgt_floor : after (.totgt 1) (withDiff 65537#64)
    (fun t => t.readU 1 == 0x00000000fffe0001fffe0001fffe0001fffe0001fffe0001fffe0001fffe0001#256) = true := by decide +kernel
theorem test_totgt_zero : after (.totgt 0) State.reset
    (fun t => t.readU 0 == 0#256 && t.regs.status.err == .rangeError) = true := by decide +kernel
theorem test_meets_equal : after (.meets 0 1) ((withU 0 5#256).writeU 1 5#256)
    (fun t => statusWord t.regs.status == 0x00000100#32) = true := by decide +kernel
theorem test_meets_unsigned : after (.meets 0 1) ((withU 0 (1#256 <<< 255)).writeU 1 5#256)
    (fun t => t.regs.status.flag == false) = true := by decide +kernel
theorem test_b58dec_leading_ones : after (.b58dec 1 0) (withS 0 (hex 3 0x313132))
    (fun t => t.readS 1 == [0x00#8, 0x00#8, 0x01#8]) = true := by decide +kernel
theorem test_b58dec_bad_digit : after (.b58dec 1 0) (withS 0 (hex 4 0x31412032))
    (fun t => t.readS 1 == [] && t.regs.status.err == .badDigit) = true := by decide +kernel
theorem test_b58decLen_digit_before_length : after (.b58decLen 1 0 1) (withS 0 (hex 2 0x316c))
    (fun t => t.regs.status.err == .badDigit) = true := by decide +kernel
theorem test_b58decLen_no_padding : after (.b58decLen 1 0 2) (withS 0 (hex 2 0x3551))
    (fun t => t.readS 1 == [] && t.regs.status.err == .lengthMismatchError) = true := by decide +kernel
theorem test_b58addr_version_30 : after (.b58addr 2 0) (withS 0 (hex 34 0x4c55457765447844413457687657694e585853786a4d3943597a48504a7634515146))
    (fun t => t.readS 2 == hex 20 0x62e907b15cbf27d5425399ebf6f0fb50ebb88f18 && statusWord t.regs.status == 0x00300000#32) = true := by decide +kernel
theorem test_b58addr_bad_checksum : after (.b58addr 2 0) (withS 0 (hex 34 0x3141317a5031655035514765666932444d505466544c35534c6d7637446976664e62))
    (fun t => t.readS 2 == [] && t.regs.status.err == .checksumError) = true := by decide +kernel
theorem test_dhash_hello : after (.dhash 1 0) (withS 0 (hex 5 0x68656c6c6f))
    (fun t => t.readS 1 == hex 32 0x9595c9df90075148eb06860365df33584b75bff782a510c6cd4883a419833d50) = true := by decide +kernel
theorem test_dhash_two_blocks : after (.dhash 0 0) (withS 0 (rep 0#8 80))
    (fun t => t.readS 0 == hex 32 0x4be7570e8f70eb093640c8468274ba759745a7aa2b7d25ab1e0421b259845014) = true := by decide +kernel
theorem test_p2pkh_bytes : after (.p2pkh 3 2) (withS 2 (hex 20 0x62e907b15cbf27d5425399ebf6f0fb50ebb88f18))
    (fun t => t.readS 3 == hex 25 0x76a91462e907b15cbf27d5425399ebf6f0fb50ebb88f1888ac) = true := by decide +kernel
theorem test_p2pkh_19_bytes : after (.p2pkh 3 2) (withS 2 (rep 0#8 19))
    (fun t => t.readS 3 == [] && t.regs.status.err == .lengthError) = true := by decide +kernel
theorem test_addrscr_keeps_aver : after (.addrscr 1 0) (withS 0 (hex 34 0x4c55457765447844413457687657694e585853786a4d3943597a48504a7634515146))
    (fun t => t.readS 1 == hex 25 0x76a91462e907b15cbf27d5425399ebf6f0fb50ebb88f1888ac && statusWord t.regs.status == 0#32) = true := by decide +kernel
theorem test_addrscr_one_error_code : after (.addrscr 1 0) (withS 0 (hex 32 0x3141317a5031655035514765666932444d505466544c35534c6d763744697666))
    (fun t => t.regs.status.err == .invalidAddressError) = true := by decide +kernel
theorem test_powh_asks_the_oracle : exec (.powh 1 0) (withS 0 (rep 0#8 80)) =
    .next (((withS 0 (rep 0#8 80)).writeS 1 (Config.powHash (Vector.replicate 80 0#8)).toList).setErr .ok) := by rfl
theorem test_powh_81_bytes : after (.powh 1 0) (withS 0 (rep 0#8 81))
    (fun t => t.readS 1 == [] && t.regs.status.err == .lengthError) = true := by decide +kernel

/-! ## The function SHA256 on messages of one and two blocks (R240), host accesses (R30, R61) -/

theorem test_sha256_56_bytes : (sha256Reference (rep 0x61#8 56)).toList =
    hex 32 0xb35439a4ac6f0948b6d6f9e3c6af0f5f590ce20f1bde7090ef7970686ec6738a := by decide +kernel
theorem test_sha256_55_bytes : (sha256Reference (rep 0x61#8 55)).toList =
    hex 32 0x9f4390f8d30c2dd92ec9f095b65e2b9ae9b0a925a5258e241c9f1e910f734318 := by decide +kernel
theorem test_illegal_word_raises : afterAct (.issue 0#32) (withU 1 7#256)
    (fun t => statusWord t.regs.status == 8#32 && t.readU 1 == 7#256) = true := by decide +kernel
theorem test_write_nonce : afterAct (.write 0x25 (.bytes [1#8, 2#8, 3#8, 4#8])) State.reset
    (fun t => t.regs.hnonce.toList == [1#8, 2#8, 3#8, 4#8]) = true := by decide
theorem test_read_status : afterAct (.read 0x40) (State.reset.setFlag true)
    (fun t => t.lastRead == some (.num 0x100)) = true := by decide
theorem test_reset_keeps_the_hosts_side : afterAct .reset { withU 1 7#256 with lastRead := some (.num 3) }
    (fun t => t.readU 1 == 0#256 && t.lastRead == some (.num 3)) = true := by decide

/-! ## Witnesses: states and operands that meet the hypotheses of the statements -/

/-- A state in which the host has issued one word. -/
def issued (c : Word32) : State := { State.reset with hostQueue := [.issue c] }

/-- A valid address of 34 characters (95_test_vectors.md section 2.4). -/
def goodAddress : Bytes := hex 34 0x3141317a5031655035514765666932444d505466544c35534c6d7637446976664e61

/-- Its 25 decoded bytes. -/
def goodBytes : Bytes := hex 25 0x0062e907b15cbf27d5425399ebf6f0fb50ebb88f18c29b7d93

theorem witness_DecodingAnEncodedCommandGivesItBack : Instr.wellFormed (.b58decLen 3 3 255) = true := by decide
theorem witness_EncodingADecodedWordGivesItBack : decodeWord 0x403301ff#32 = .ok (.b58decLen 3 3 255) := by decide +kernel
theorem witness_DecodingChecksTheFields : decodeWord 0x403301ff#32 = .ok (.b58decLen 3 3 255) ∧
    ∀ i, decodeWord 0x00000000#32 ≠ .ok i := by
  refine ⟨by decide +kernel, fun i h => ?_⟩
  have : decodeWord 0x00000000#32 = .error .unknownOpcode := by rfl
  rw [this] at h; cases h
theorem witness_StepRunsTheIssuedCommand : (issued 0x10120000#32).hostQueue = .issue 0x10120000#32 :: [] ∧
    decodeWord 0x10120000#32 = .ok (.tole 1 2) := ⟨rfl, by rfl⟩
theorem witness_IllegalWordRaisesIllegalCommand : (issued 0x10400000#32).hostQueue = .issue 0x10400000#32 :: [] ∧
    ∀ j : Instr, 0x10400000#32 &&& j.row.mask ≠ j.row.pattern := by
  refine ⟨rfl, fun j => ?_⟩
  cases j <;> (simp only [Instr.row]; decide)
theorem witness_IssuingTheWordsOfAProgramExecutesIt : ∀ i ∈ Instr.b58decLen 3 3 255 :: chkshare 0 1 0 1, i.wellFormed = true := by
  decide
theorem witness_StepWithoutHostActionChangesNothing : State.reset.hostQueue = [] := rfl
theorem witness_HostWriteStoresTheValue : (rep 0#8 128).length ≤ Config.cap ∧ ([] : Bytes).length ≤ Config.cap := by decide +kernel
theorem witness_WhatIsNoHostActionIsRefused_numbers :
    2 ^ 256 ≤ 2 ^ 256 ∧ 2 ^ 64 ≤ 2 ^ 64 ∧ 2 ^ 32 ≤ 2 ^ 32 := ⟨le_rfl, le_rfl, le_rfl⟩
theorem witness_WhatIsNoHostActionIsRefused_strings : Config.cap < (rep 0#8 129).length ∧ (rep 0#8 31).length ≠ 32 ∧
    (rep 0#8 33).length ≠ 32 ∧ (rep 0#8 3).length ≠ 4 ∧ (rep 0#8 5).length ≠ 4 := by decide +kernel
theorem witness_WhatIsNoHostActionIsRefused_registers :
    (∀ r : RegName, r.number ≠ 0x04) ∧ (∀ r : RegName, r.number ≠ 0x14) ∧ ∀ r : RegName, r.number ≠ 0x51 := by
  refine ⟨fun r => ?_, fun r => ?_, fun r => ?_⟩ <;> cases r <;> simp only [RegName.number] <;> omega
theorem witness_ReadAfterWriteReturnsTheValueWritten : ∃ t, (0x10 : Nat) ≠ 0x50 ∧
    hostAct (.write 0x10 (.bytes [5#8])) State.reset = .next t := ⟨_, by decide, rfl⟩
theorem witness_EveryStepKeepsCapacity : ∃ t, State.reset.Inv ∧ step (issued 0x20000000#32) = .next t ∧ (issued 0x20000000#32).Inv := by
  have h : ∀ i : SIdx, (State.reset.readS i).length ≤ 128 := by decide
  exact ⟨_, h, rfl, h⟩
theorem witness_FailedCommandWritesOnlyErrAndFailsAgain : ∃ t t' t'', exec (.totgt 0) State.reset = .next t ∧
    t.regs.status.err ≠ .ok ∧ (0x30 : Nat) ≠ 0x50 ∧ hostAct (.write 0x30 (.num 5)) t = .next t' ∧
    hostAct (.read 0x40) t' = .next t'' := ⟨_, _, _, rfl, by decide, by decide, rfl, rfl⟩
theorem witness_CommandsReportOnlyTheirErrors : ∃ t, exec (.hser 0) State.reset = .next t := ⟨_, rfl⟩
theorem witness_CommandsKeepTheRegistersTheyDoNotWrite : ∃ t, exec (.tole 0 0) State.reset = .next t ∧
    (∀ ua ub, Instr.tole 0 0 ≠ .meets ua ub) ∧ ∀ sd sa, Instr.tole 0 0 ≠ .b58addr sd sa :=
  ⟨_, rfl, fun _ _ h => (by cases h), fun _ _ h => (by cases h)⟩
theorem witness_CommandDependsOnlyOnItsSources : ∃ t t', sourcesAgree (.meets 0 1) (withU 0 5#256) ((withU 0 5#256).writeU 2 9#256) ∧
    exec (.meets 0 1) (withU 0 5#256) = .next t ∧ exec (.meets 0 1) ((withU 0 5#256).writeU 2 9#256) = .next t' ∧
    t.regs.status.err = .ok := ⟨_, _, ⟨rfl, rfl⟩, rfl, rfl, rfl⟩
theorem witness_InterleavedInstancesRunAsAlone : ∃ cores',
    runSchedule machineParams [0, 1, 0] (fun _ : Fin 2 => issued 0x30000000#32) = some cores' := ⟨_, rfl⟩
/-- Parameters other than the machine's: the largest CAP and a hash that is always zero. -/
def otherParams : Params where
  cap := 255
  cap_ge := by decide
  cap_le := by decide
  maxTarget := 1#256
  maxTarget_pos := by decide
  sha256 := fun _ => Vector.replicate 32 0#8
  powHash := fun _ => Vector.replicate 32 0#8
theorem witness_EveryStepKeepsCapacity_anyParams : ∃ t, (issued 0x20000000#32).Fits otherParams.cap ∧
    stepWith otherParams (issued 0x20000000#32) = .next t := by
  have h : ∀ i : SIdx, (State.reset.readS i).length ≤ 255 := by decide
  exact ⟨_, h, rfl⟩
theorem witness_CoreFollowsItsParameters_plain : usesParams (.b58decLen 0 1 255) = false ∧
    (rep 0#8 255).length ≤ otherParams.cap ∧ otherParams.cap < (rep 0#8 256).length ∧
    (withDiff 1#64).regs.diff ≠ 0#64 ∧ (withDiff 0#64).regs.diff = 0#64 ∧
    (withS 0 (rep 0#8 80)).readS 0 = (Vector.replicate 80 0#8).toList ∧ ((withS 0 (rep 0#8 81)).readS 0).length ≠ 80 := by
  decide +kernel
theorem witness_CoreFollowsItsParameters_texts :
    (∃ r, DecodesTo ((withS 0 (rep 0x31#8 25)).readS 0) r ∧ PassesCheck otherParams.sha256 r) ∧
    (∃ r, DecodesTo ((withS 0 (rep 0x31#8 24)).readS 0) r ∧ r.length ≠ 25) ∧
    (∃ r, DecodesTo ((withS 0 (rep 0x31#8 24 ++ [0x32#8])).readS 0) r ∧ r.length = 25 ∧
      ¬ PassesCheck otherParams.sha256 r) ∧
    ¬ AllDigits ((withS 0 [0x30#8]).readS 0) := by
  refine ⟨⟨rep 0#8 25, decodesTo_of_decode_ok (e := none) (by rfl), ?_⟩,
    ⟨rep 0#8 24, decodesTo_of_decode_ok (e := none) (by rfl), by decide⟩,
    ⟨rep 0#8 24 ++ [1#8], decodesTo_of_decode_ok (e := none) (by rfl), by decide, fun h => ?_⟩,
    fun h => by have := (digitVals_isSome_iff _).2 h; revert this; decide⟩
  · constructor <;> decide +kernel
  · have := h.2; revert this; decide +kernel
theorem test_dhash_takes_the_parameter :
    (match execWith otherParams (.dhash 0 1) State.reset with
      | .next t => t.readS 0 == rep 0#8 32
      | .fault _ => false
      | .refused _ => false) = true := by decide +kernel
theorem witness_FromleWritesTheLittleEndianSum :
    ((withS 1 (rep 0xff#8 32)).readS 1).length = 32 ∧ ((withS 1 (rep 0xff#8 31)).readS 1).length ≠ 32 := by decide
theorem witness_RhwgReversesTheGroups :
    ((withS 1 (rep 0x30#8 64)).readS 1).length = 64 ∧ ((withS 1 (rep 0x30#8 65)).readS 1).length ≠ 64 := by decide
theorem witness_LittleEndianRoundTrip :
    (rep 0xff#8 32).length = 32 ∧ ((withS 1 (rep 0xff#8 32)).readS 1).length = 32 := by decide
theorem witness_ReverseHexWordGroupsIsAnInvolution : (rep 0x30#8 64).length = 64 := by decide
theorem witness_WswapReversesEachChunk :
    ((withS 1 (rep 0xff#8 80)).readS 1).length = 80 ∧ ((withS 1 (rep 0xff#8 79)).readS 1).length ≠ 80 := by decide
theorem witness_HeaderLengthAndChunkSwapInvolution : ∃ t t', (rep 0xff#8 80).length = 80 ∧
    exec (.hser 0) State.reset = .next t ∧ exec (.wswap 1 0) (withS 0 (rep 0xff#8 80)) = .next t' ∧
    t'.regs.status.err = .ok := ⟨_, _, by decide, rfl, rfl, rfl⟩
theorem witness_TotgtWritesTheFloorQuotient :
    (withDiff 1#64).regs.diff ≠ 0#64 ∧ (withDiff 0xffffffffffffffff#64).regs.diff ≠ 0#64 ∧ (withDiff 0#64).regs.diff = 0#64 := by
  decide
theorem witness_TargetFallsAsDifficultyRises :
    1 ≤ 1 ∧ 1 < 2 ^ 64 - 1 ∧ 2 ^ 64 - 1 < 2 ^ 64 ∧ 2 ^ 128 ≤ Config.maxTarget.toNat := by decide
theorem witness_AllDigits : AllDigits goodAddress ∧ AllDigits [] ∧ ¬ AllDigits [0x30#8] :=
  ⟨(digitVals_isSome_iff _).1 (by decide +kernel), (digitVals_isSome_iff _).1 (by decide),
    fun h => by have := (digitVals_isSome_iff _).2 h; revert this; decide⟩
theorem decode_goodAddress : decode goodAddress none = .ok goodBytes := by rfl
theorem passesCheck_goodBytes : PassesCheck sha256Port goodBytes := by
  constructor <;> decide +kernel
theorem witness_B58decWritesTheDecodedBytes : 0 ≤ 255 ∧ 255 ≤ 255 ∧ AllDigits ((withS 0 goodAddress).readS 0) ∧
    DecodesTo ((withS 0 goodAddress).readS 0) goodBytes ∧ goodBytes.length = 25 ∧ goodBytes.length ≠ 24 ∧
    ¬ AllDigits ((withS 0 [0x30#8]).readS 0) :=
  ⟨by decide, le_rfl, witness_AllDigits.1, decodesTo_of_decode_ok decode_goodAddress, by decide, by decide,
    witness_AllDigits.2.2⟩
theorem witness_TextDecodesToOneByteString : DecodesTo goodAddress goodBytes :=
  decodesTo_of_decode_ok decode_goodAddress
theorem witness_B58addrVerifiesAndSplitsTheAddress_good :
    DecodesTo ((withS 0 goodAddress).readS 0) goodBytes ∧ PassesCheck sha256Port goodBytes :=
  ⟨decodesTo_of_decode_ok decode_goodAddress, passesCheck_goodBytes⟩
theorem witness_B58addrVerifiesAndSplitsTheAddress_length : ∃ r, DecodesTo ((withS 0 []).readS 0) r ∧ r.length ≠ 25 :=
  ⟨[], decodesTo_of_decode_ok (e := none) (by decide), by decide⟩
theorem witness_B58addrVerifiesAndSplitsTheAddress_checksum : ∃ r, DecodesTo ((withS 0 (rep 0x31#8 25)).readS 0) r ∧
    r.length = 25 ∧ ¬ PassesCheck sha256Port r := by
  refine ⟨rep 0#8 25, decodesTo_of_decode_ok (e := none) (by rfl), by decide, fun h => ?_⟩
  have := h.2; revert this; decide +kernel
theorem witness_B58addrVerifiesAndSplitsTheAddress_digit : ¬ AllDigits ((withS 0 [0x30#8]).readS 0) := witness_AllDigits.2.2
theorem witness_DecodedTextIsNoLongerThanTheText : decode goodAddress none = .ok goodBytes := decode_goodAddress
theorem witness_Base58RoundTrip : decode goodAddress none = .ok goodBytes := decode_goodAddress
theorem witness_AddressRoundTrip : (rep 0xff#8 20).length = 20 := by decide
theorem witness_ChangedAddressByteFailsTheChecksum_checksum : PassesCheck sha256Port goodBytes ∧ 24 < 25 ∧
    goodBytes[24]? ≠ some 0x6c#8 ∧
    (24 < 21 → first 4 (doubleHash sha256Port (first 21 (goodBytes.set 24 0x6c#8))) ≠ slice goodBytes 21 4) :=
  ⟨passesCheck_goodBytes, by decide, by decide, fun h => absurd h (by decide)⟩
theorem witness_ChangedAddressByteFailsTheChecksum_payload : PassesCheck sha256Port goodBytes ∧ 20 < 25 ∧
    goodBytes[20]? ≠ some 0xe7#8 ∧
    (20 < 21 → first 4 (doubleHash sha256Port (first 21 (goodBytes.set 20 0xe7#8))) ≠ slice goodBytes 21 4) :=
  ⟨passesCheck_goodBytes, by decide, by decide, fun _ => by decide +kernel⟩
theorem witness_P2pkhWritesTheScript :
    ((withS 1 (rep 0xff#8 20)).readS 1).length = 20 ∧ ((withS 1 (rep 0xff#8 21)).readS 1).length ≠ 20 := by decide
theorem witness_AddrscrWritesTheScriptOfTheAddress_good :
    DecodesTo ((withS 0 goodAddress).readS 0) goodBytes ∧ PassesCheck sha256Port goodBytes :=
  witness_B58addrVerifiesAndSplitsTheAddress_good
theorem witness_AddrscrWritesTheScriptOfTheAddress_bad :
    (∀ r : Bytes, DecodesTo ((withS 0 [0x30#8]).readS 0) r → ¬ PassesCheck sha256Port r) :=
  fun _ h => absurd h.1 witness_AllDigits.2.2
theorem witness_AddrscrWritesTheScriptOfTheAddress_combo : ∃ t t1, exec (.addrscr 1 0) (withS 0 goodAddress) = .next t ∧
    exec (.b58addr 2 0) (withS 0 goodAddress) = .next t1 ∧ t1.regs.status.err = .ok := by
  obtain ⟨t1, h1, hw⟩ := completeAddr_cases 2 (decodeAddress sha256Port goodAddress) (withS 0 goodAddress)
  obtain ⟨t, h, -⟩ := completeS_cases 1 (buildFromAddress sha256Port goodAddress) (withS 0 goodAddress)
  refine ⟨t, t1, h, h1, ?_⟩
  rcases hw with ⟨_, _, -, w⟩ | ⟨e, he, -⟩
  · exact w.err
  · have ok : (decodeAddress sha256Port goodAddress).toOption.isSome = true := by decide +kernel
    rw [he] at ok; cases ok
theorem witness_ScriptHasItsShapeAndIsInjective : ∃ script, payToPubkeyHash (rep 0#8 20) = .ok script := ⟨_, rfl⟩
theorem witness_PowhWritesTheOraclesDigest : (withS 0 (rep 0#8 80)).readS 0 = (Vector.replicate 80 0#8).toList ∧
    ((withS 0 (rep 0#8 79)).readS 0).length ≠ 80 := by decide
theorem witness_ShareFlowAcceptsExactlyGoodShares : (withDiff 16#64).regs.diff ≠ 0#64 ∧ (withDiff 0#64).regs.diff = 0#64 ∧
    (0 : UIdx) ≠ 1 ∧ (0 : SIdx) ≠ 1 ∧ 1 ≤ 6 := by decide

end Sys2Proof.Tests
end

section
/-! SUPPORT. The value of each function of the rules on each class of its arguments, and how the parametric core
completes the five commands that name a parameter (spec/00_scope.md R8). -/

namespace Sys2Proof.Machine

/-! ## What a completion that answered has done, by the result it was given -/

section
variable {s t : State} {e : CmdError}

theorem completeS_next (d : SIdx) (r : Except CmdError Bytes) (s : State) : ∃ t, completeS d r s = .next t := by
  obtain ⟨t, ht, -⟩ := completeS_cases d r s
  exact ⟨t, ht⟩

theorem completeU_next (d : UIdx) (r : Except CmdError Uint256) (s : State) : ∃ t, completeU d r s = .next t := by
  obtain ⟨t, ht, -⟩ := completeU_cases d r s
  exact ⟨t, ht⟩

theorem completeAddr_next (d : SIdx) (r : Except CmdError (Byte × Bytes)) (s : State) :
    ∃ t, completeAddr d r s = .next t := by
  obtain ⟨t, ht, -⟩ := completeAddr_cases d r s
  exact ⟨t, ht⟩

theorem writesS_of_completeS {d : SIdx} {r : Except CmdError Bytes} {b : Bytes} (ht : completeS d r s = .next t)
    (hr : r = .ok b) : WritesS d b s t := by
  subst hr; cases ht; exact writesS_succeed d b s

theorem writesOnlyErr_of_completeS {d : SIdx} {r : Except CmdError Bytes} (ht : completeS d r s = .next t)
    (hr : r = .error e) : WritesOnlyErr e.code s t := by
  subst hr; cases ht; exact writesOnlyErr_raise e s

theorem writesU_of_completeU {d : UIdx} {r : Except CmdError Uint256} {v : Uint256} (ht : completeU d r s = .next t)
    (hr : r = .ok v) : WritesU d v s t := by
  subst hr; cases ht; exact writesU_succeed d v s

theorem writesOnlyErr_of_completeU {d : UIdx} {r : Except CmdError Uint256} (ht : completeU d r s = .next t)
    (hr : r = .error e) : WritesOnlyErr e.code s t := by
  subst hr; cases ht; exact writesOnlyErr_raise e s

theorem writesAddr_of_completeAddr {d : SIdx} {r : Except CmdError (Byte × Bytes)} {version : Byte} {payload : Bytes}
    (ht : completeAddr d r s = .next t) (hr : r = .ok (version, payload)) : WritesAddr d version payload s t := by
  subst hr; cases ht; exact writesAddr_succeed d version payload s

theorem writesOnlyErr_of_completeAddr {d : SIdx} {r : Except CmdError (Byte × Bytes)} (ht : completeAddr d r s = .next t)
    (hr : r = .error e) : WritesOnlyErr e.code s t := by
  subst hr; cases ht; exact writesOnlyErr_raise e s

end

/-! ## The functions of the rules -/

theorem toTarget_of_pos (m : Uint256) {d : Nat} (hd : 0 < d) : toTarget m d = .ok (BitVec.ofNat 256 (m.toNat / d)) :=
  if_neg (by omega)

theorem toTarget_zero (m : Uint256) : toTarget m 0 = .error .rangeError := rfl

/-- The quotient fits in 256 bits, so no bit of it is lost (R161). -/
theorem toNat_ofNat_target (m : Uint256) (d : Nat) : (BitVec.ofNat 256 (m.toNat / d)).toNat = m.toNat / d := by
  have hlt : m.toNat / d < 2 ^ 256 := (Nat.div_le_self _ _).trans_lt m.isLt
  rw [BitVec.toNat_ofNat, Nat.mod_eq_of_lt hlt]

theorem powHash_toList (pow : Vector Byte 80 → Vector Byte 32) (h : Vector Byte 80) :
    powHash pow h.toList = .ok (pow h).toList := by
  rw [powHash, toFixed_toList]

theorem powHash_of_length_ne (pow : Vector Byte 80 → Vector Byte 32) {b : Bytes} (h : b.length ≠ 80) :
    powHash pow b = .error .lengthError := by
  rw [powHash, toFixed_none h]

theorem payToPubkeyHash_of_length {h : Bytes} (hl : h.length = 20) :
    payToPubkeyHash h = .ok ([0x76#8, 0xA9#8, 0x14#8] ++ h ++ [0x88#8, 0xAC#8]) := if_pos hl

section
variable {sha : HashFn} {text r : Bytes}

theorem getElem?_zero_eq_addrVersion (hl : r.length = 25) : r[0]? = some (addrVersion r) := by
  simp [addrVersion, hl]

theorem length_addrPayload (hl : r.length = 25) : (addrPayload r).length = 20 := by
  simp [addrPayload, slice, hl]

theorem buildFromAddress_of_passesCheck (h : DecodesTo text r) (hp : PassesCheck sha r) :
    buildFromAddress sha text = .ok ([0x76#8, 0xA9#8, 0x14#8] ++ addrPayload r ++ [0x88#8, 0xAC#8]) := by
  rw [buildFromAddress, decodeAddress_of_passesCheck h hp]
  exact payToPubkeyHash_of_length (length_addrPayload hp.1)

/-- R212: every failure of the decoding becomes one and the same failure. -/
theorem buildFromAddress_of_error {e : CmdError} (h : decodeAddress sha text = .error e) :
    buildFromAddress sha text = .error .invalidAddressError := by
  rw [buildFromAddress, h]

theorem buildFromAddress_of_not_passesCheck (h : DecodesTo text r) (hp : ¬ PassesCheck sha r) :
    buildFromAddress sha text = .error .invalidAddressError := by
  by_cases hl : r.length = 25
  · exact buildFromAddress_of_error (decodeAddress_of_not_passesCheck h hl hp)
  · exact buildFromAddress_of_error (decodeAddress_of_length_ne h hl)

end

/-! ## What the host writes to a register (R61, R62) -/

section
variable {cap n : Nat} {run : Instr → State → Result} {reg : RegName} {v : RegValue} {s : State}

theorem hostWriteBy_of_some {g : Regs} (hn : regOfNumber n = some reg) (hw : writeReg cap reg v s.regs = some g) :
    hostWriteBy cap run n v s = .next { s with regs := g } := by
  cases reg with
  | status => nomatch hw
  | cmd => nomatch hw
  | _ => simp only [hostWriteBy, hn, hw]

theorem hostWriteBy_of_none (hn : regOfNumber n = some reg) (hs : reg ≠ .status) (hc : reg ≠ .cmd)
    (hw : writeReg cap reg v s.regs = none) : hostWriteBy cap run n v s = .refused (.illTyped n) := by
  cases reg with
  | status => exact absurd rfl hs
  | cmd => exact absurd rfl hc
  | _ => simp only [hostWriteBy, hn, hw]

end

theorem asBytes_of_le {cap : Nat} {b : Bytes} (h : b.length ≤ cap) : asBytes cap (.bytes b) = some b := if_pos h

theorem asBytes_of_lt {cap : Nat} {b : Bytes} (h : cap < b.length) : asBytes cap (.bytes b) = none := if_neg (by omega)

theorem regOfNumber_s (i : SIdx) : regOfNumber (0x10 + i.val) = some (.s i) := regOfNumber_number (.s i)

theorem hostActWith_write (p : Params) (n : Nat) (v : RegValue) (s : State) :
    hostActWith p (.write n v) s = hostWriteBy p.cap (execWith p) n v s := rfl

theorem hostActWith_write_s_of_le (p : Params) (i : SIdx) {b : Bytes} (s : State) (h : b.length ≤ p.cap) :
    hostActWith p (.write (0x10 + i.val) (.bytes b)) s = .next (s.writeS i b) := by
  rw [hostActWith_write]
  exact hostWriteBy_of_some (regOfNumber_s i) (by rw [writeReg, asBytes_of_le h]; rfl)

theorem hostActWith_write_s_of_lt (p : Params) (i : SIdx) {b : Bytes} (s : State) (h : p.cap < b.length) :
    hostActWith p (.write (0x10 + i.val) (.bytes b)) s = .refused (.illTyped (0x10 + i.val)) := by
  rw [hostActWith_write]
  exact hostWriteBy_of_none (regOfNumber_s i) nofun nofun (by rw [writeReg, asBytes_of_lt h]; rfl)

/-! ## The commands of the core for given parameters -/

theorem execWith_eq_exec (p : Params) {i : Instr} (h : usesParams i = false) (s : State) : execWith p i s = exec i s := by
  cases i with
  | totgt | b58addr | dhash | addrscr | powh => nomatch h
  | _ => rfl

section
variable (p : Params) (ud : UIdx) (sd sa : SIdx) {s : State}

theorem execWith_totgt_of_ne_zero (hd : s.regs.diff ≠ 0#64) : ∃ t v, execWith p (.totgt ud) s = .next t ∧
    WritesU ud v s t ∧ v.toNat = p.maxTarget.toNat / s.regs.diff.toNat := by
  have hpos : 0 < s.regs.diff.toNat := Nat.pos_of_ne_zero fun h => hd (BitVec.eq_of_toNat_eq h)
  obtain ⟨t, ht⟩ := completeU_next ud (toTarget p.maxTarget s.regs.diff.toNat) s
  exact ⟨t, _, ht, writesU_of_completeU ht (toTarget_of_pos _ hpos), toNat_ofNat_target _ _⟩

theorem execWith_totgt_of_zero (hd : s.regs.diff = 0#64) : ∃ t, execWith p (.totgt ud) s = .next t ∧
    WritesOnlyErr .rangeError s t := by
  obtain ⟨t, ht⟩ := completeU_next ud (toTarget p.maxTarget s.regs.diff.toNat) s
  have hr : toTarget p.maxTarget s.regs.diff.toNat = .error .rangeError := by
    rw [hd, BitVec.toNat_zero, toTarget_zero]
  exact ⟨t, ht, writesOnlyErr_of_completeU ht hr⟩

theorem execWith_dhash (s : State) : ∃ t, execWith p (.dhash sd sa) s = .next t ∧
    WritesS sd (p.sha256 (p.sha256 (s.readS sa)).toList).toList s t :=
  ⟨_, rfl, writesS_succeed sd _ s⟩

theorem execWith_powh_of_eq {h : Vector Byte 80} (hs : s.readS sa = h.toList) :
    ∃ t, execWith p (.powh sd sa) s = .next t ∧ WritesS sd (p.powHash h).toList s t := by
  obtain ⟨t, ht⟩ := completeS_next sd (powHash p.powHash (s.readS sa)) s
  exact ⟨t, ht, writesS_of_completeS ht (by rw [hs, powHash_toList])⟩

theorem execWith_powh_of_length_ne (hl : (s.readS sa).length ≠ 80) :
    ∃ t, execWith p (.powh sd sa) s = .next t ∧ WritesOnlyErr .lengthError s t := by
  obtain ⟨t, ht⟩ := completeS_next sd (powHash p.powHash (s.readS sa)) s
  exact ⟨t, ht, writesOnlyErr_of_completeS ht (powHash_of_length_ne _ hl)⟩

theorem execWith_b58addr_of_decodesTo {r : Bytes} (hr : DecodesTo (s.readS sa) r) :
    ∃ t, execWith p (.b58addr sd sa) s = .next t ∧
      (r.length ≠ 25 → WritesOnlyErr .lengthMismatchError s t) ∧
      (r.length = 25 → ¬ PassesCheck p.sha256 r → WritesOnlyErr .checksumError s t) ∧
      (PassesCheck p.sha256 r → ∃ version, r[0]? = some version ∧ WritesAddr sd version (slice r 1 20) s t) := by
  obtain ⟨t, ht⟩ := completeAddr_next sd (decodeAddress p.sha256 (s.readS sa)) s
  refine ⟨t, ht, fun hl => ?_, fun hl hp => ?_, fun hp => ⟨_, getElem?_zero_eq_addrVersion hp.1, ?_⟩⟩
  · exact writesOnlyErr_of_completeAddr ht (decodeAddress_of_length_ne hr hl)
  · exact writesOnlyErr_of_completeAddr ht (decodeAddress_of_not_passesCheck hr hl hp)
  · exact writesAddr_of_completeAddr ht (decodeAddress_of_passesCheck hr hp)

theorem execWith_b58addr_of_badDigit (hd : ¬ AllDigits (s.readS sa)) :
    ∃ t, execWith p (.b58addr sd sa) s = .next t ∧ WritesOnlyErr .badDigit s t := by
  obtain ⟨t, ht⟩ := completeAddr_next sd (decodeAddress p.sha256 (s.readS sa)) s
  exact ⟨t, ht, writesOnlyErr_of_completeAddr ht (decodeAddress_of_badDigit hd)⟩

theorem execWith_addrscr_of_decodesTo {r : Bytes} (hr : DecodesTo (s.readS sa) r) :
    ∃ t, execWith p (.addrscr sd sa) s = .next t ∧
      (¬ PassesCheck p.sha256 r → WritesOnlyErr .invalidAddressError s t) ∧
      (PassesCheck p.sha256 r →
        WritesS sd ([0x76#8, 0xA9#8, 0x14#8] ++ slice r 1 20 ++ [0x88#8, 0xAC#8]) s t) := by
  obtain ⟨t, ht⟩ := completeS_next sd (buildFromAddress p.sha256 (s.readS sa)) s
  refine ⟨t, ht, fun hp => ?_, fun hp => ?_⟩
  · exact writesOnlyErr_of_completeS ht (buildFromAddress_of_not_passesCheck hr hp)
  · exact writesS_of_completeS ht (buildFromAddress_of_passesCheck hr hp)

theorem execWith_addrscr_of_badDigit (hd : ¬ AllDigits (s.readS sa)) :
    ∃ t, execWith p (.addrscr sd sa) s = .next t ∧ WritesOnlyErr .invalidAddressError s t := by
  obtain ⟨t, ht⟩ := completeS_next sd (buildFromAddress p.sha256 (s.readS sa)) s
  exact ⟨t, ht, writesOnlyErr_of_completeS ht (buildFromAddress_of_error (decodeAddress_of_badDigit hd))⟩

end

end Sys2Proof.Machine
end

section
/-! SUPPORT. The statement about the parameters (spec/00_scope.md R8, spec/10_state.md R29). -/

namespace Sys2Proof.Machine

/-- Settles O60: the laws of the parametric core, one command and one class of operands at a time. -/
theorem coreFollowsItsParameters : Obligations.CoreFollowsItsParameters := by
  refine ⟨exec_eq_execWith, step_eq_stepWith, fun p s => ⟨⟨p.cap_ge, p.cap_le, p.maxTarget_pos⟩, ?_, ?_, ?_, ?_⟩⟩
  · exact fun i h => execWith_eq_exec p h s
  · exact fun i b => ⟨hostActWith_write_s_of_le p i s, hostActWith_write_s_of_lt p i s⟩
  · exact fun ud => ⟨execWith_totgt_of_ne_zero p ud, execWith_totgt_of_zero p ud⟩
  intro sd sa
  refine ⟨execWith_dhash p sd sa s, fun h => execWith_powh_of_eq p sd sa, execWith_powh_of_length_ne p sd sa,
    fun r hr => ?_, fun hd => ?_⟩
  · obtain ⟨t, ht, hlen, hsum, hok⟩ := execWith_b58addr_of_decodesTo p sd sa hr
    obtain ⟨t', ht', hbad, hscript⟩ := execWith_addrscr_of_decodesTo p sd sa hr
    exact ⟨t, t', ht, ht', hlen, hsum, hbad, fun hp => ⟨hok hp, hscript hp⟩⟩
  · obtain ⟨t, ht, herr⟩ := execWith_b58addr_of_badDigit p sd sa hd
    obtain ⟨t', ht', herr'⟩ := execWith_addrscr_of_badDigit p sd sa hd
    exact ⟨t, t', ht, ht', herr, herr'⟩

end Sys2Proof.Machine
end

section
/-! SUPPORT. A completion that answered, taken apart once: how it has ended, what it never writes, and that two completions
of one result agree (spec/10_state.md R23 to R25, R28). -/

namespace Sys2Proof.Machine

/-! ## How a completion that answered has ended -/

section
variable {s t : State}

theorem completeS_inv {d : SIdx} {r : Except CmdError Bytes} (ht : completeS d r s = .next t) :
    (∃ b, r = .ok b ∧ WritesS d b s t) ∨ ∃ e : CmdError, r = .error e ∧ WritesOnlyErr e.code s t := by
  cases hr : r with
  | ok b => exact .inl ⟨b, rfl, writesS_of_completeS ht hr⟩
  | error e => exact .inr ⟨e, rfl, writesOnlyErr_of_completeS ht hr⟩

theorem completeU_inv {d : UIdx} {r : Except CmdError Uint256} (ht : completeU d r s = .next t) :
    (∃ v, r = .ok v ∧ WritesU d v s t) ∨ ∃ e : CmdError, r = .error e ∧ WritesOnlyErr e.code s t := by
  cases hr : r with
  | ok v => exact .inl ⟨v, rfl, writesU_of_completeU ht hr⟩
  | error e => exact .inr ⟨e, rfl, writesOnlyErr_of_completeU ht hr⟩

theorem completeAddr_inv {d : SIdx} {r : Except CmdError (Byte × Bytes)} (ht : completeAddr d r s = .next t) :
    (∃ version payload, r = .ok (version, payload) ∧ WritesAddr d version payload s t) ∨
      ∃ e : CmdError, r = .error e ∧ WritesOnlyErr e.code s t := by
  cases hr : r with
  | ok vp => exact .inl ⟨vp.1, vp.2, rfl, writesAddr_of_completeAddr ht hr⟩
  | error e => exact .inr ⟨e, rfl, writesOnlyErr_of_completeAddr ht hr⟩

theorem writesFlag_of_completeFlag {f : Bool} (ht : completeFlag f s = .next t) : WritesFlag f s t := by
  cases ht; exact writesFlag_succeed f s

/-! ## What a completion never writes (R23, R24, R25) -/

theorem completeS_frame {d : SIdx} {r : Except CmdError Bytes} (ht : completeS d r s = .next t) :
    KeepsRest s t ∧ t.regs.status.flag = s.regs.status.flag ∧ t.regs.status.aver = s.regs.status.aver := by
  obtain ⟨b, -, w⟩ | ⟨e, -, w⟩ := completeS_inv ht
  · exact ⟨w.toKeepsRest, w.flag, w.aver⟩
  · exact ⟨w.toKeepsRest, w.flag, w.aver⟩

theorem completeU_frame {d : UIdx} {r : Except CmdError Uint256} (ht : completeU d r s = .next t) :
    KeepsRest s t ∧ t.regs.status.flag = s.regs.status.flag ∧ t.regs.status.aver = s.regs.status.aver := by
  obtain ⟨v, -, w⟩ | ⟨e, -, w⟩ := completeU_inv ht
  · exact ⟨w.toKeepsRest, w.flag, w.aver⟩
  · exact ⟨w.toKeepsRest, w.flag, w.aver⟩

theorem completeAddr_frame {d : SIdx} {r : Except CmdError (Byte × Bytes)} (ht : completeAddr d r s = .next t) :
    KeepsRest s t ∧ t.regs.status.flag = s.regs.status.flag := by
  obtain ⟨version, payload, -, w⟩ | ⟨e, -, w⟩ := completeAddr_inv ht
  · exact ⟨w.toKeepsRest, w.flag⟩
  · exact ⟨w.toKeepsRest, w.flag⟩

/-! ## Two completions of one result (R28) -/

variable {s' t' : State}

/-- Runs that fail alike report one code, which is not that of success, so nothing is asked of what they write. -/
theorem agree_of_writesOnlyErr {e : CmdError} {results : Prop} (w : WritesOnlyErr e.code s t)
    (w' : WritesOnlyErr e.code s' t') :
    t.regs.status.err = t'.regs.status.err ∧ (t.regs.status.err = .ok → results) :=
  ⟨w.err.trans w'.err.symm, fun h => absurd (w.err.symm.trans h) e.code_ne_ok⟩

theorem completeS_agree {d : SIdx} {r r' : Except CmdError Bytes} (hr : r = r') (ht : completeS d r s = .next t)
    (ht' : completeS d r' s' = .next t') :
    t.regs.status.err = t'.regs.status.err ∧ (t.regs.status.err = .ok → t.readS d = t'.readS d) := by
  subst hr
  cases hr : r with
  | ok b =>
    have w := writesS_of_completeS ht hr
    have w' := writesS_of_completeS ht' hr
    exact ⟨w.err.trans w'.err.symm, fun _ => w.dest.trans w'.dest.symm⟩
  | error e => exact agree_of_writesOnlyErr (writesOnlyErr_of_completeS ht hr) (writesOnlyErr_of_completeS ht' hr)

theorem completeS_agree_of_ok {d : SIdx} {b b' : Bytes} (hb : b = b') (ht : completeS d (.ok b) s = .next t)
    (ht' : completeS d (.ok b') s' = .next t') :
    t.regs.status.err = t'.regs.status.err ∧ (t.regs.status.err = .ok → t.readS d = t'.readS d) :=
  completeS_agree (congrArg _ hb) ht ht'

theorem completeU_agree {d : UIdx} {r r' : Except CmdError Uint256} (hr : r = r') (ht : completeU d r s = .next t)
    (ht' : completeU d r' s' = .next t') :
    t.regs.status.err = t'.regs.status.err ∧ (t.regs.status.err = .ok → t.readU d = t'.readU d) := by
  subst hr
  cases hr : r with
  | ok v =>
    have w := writesU_of_completeU ht hr
    have w' := writesU_of_completeU ht' hr
    exact ⟨w.err.trans w'.err.symm, fun _ => w.dest.trans w'.dest.symm⟩
  | error e => exact agree_of_writesOnlyErr (writesOnlyErr_of_completeU ht hr) (writesOnlyErr_of_completeU ht' hr)

theorem completeFlag_agree {f f' : Bool} (hf : f = f') (ht : completeFlag f s = .next t)
    (ht' : completeFlag f' s' = .next t') :
    t.regs.status.err = t'.regs.status.err ∧ (t.regs.status.err = .ok → t.regs.status.flag = t'.regs.status.flag) := by
  subst hf
  have w := writesFlag_of_completeFlag ht
  have w' := writesFlag_of_completeFlag ht'
  exact ⟨w.err.trans w'.err.symm, fun _ => w.flag.trans w'.flag.symm⟩

theorem completeAddr_agree {d : SIdx} {r r' : Except CmdError (Byte × Bytes)} (hr : r = r')
    (ht : completeAddr d r s = .next t) (ht' : completeAddr d r' s' = .next t') :
    t.regs.status.err = t'.regs.status.err ∧
      (t.regs.status.err = .ok → t.readS d = t'.readS d ∧ t.regs.status.aver = t'.regs.status.aver) := by
  subst hr
  cases hr : r with
  | ok vp =>
    have w := writesAddr_of_completeAddr ht hr
    have w' := writesAddr_of_completeAddr ht' hr
    exact ⟨w.err.trans w'.err.symm, fun _ => ⟨w.dest.trans w'.dest.symm, w.aver.trans w'.aver.symm⟩⟩
  | error e => exact agree_of_writesOnlyErr (writesOnlyErr_of_completeAddr ht hr) (writesOnlyErr_of_completeAddr ht' hr)

end

end Sys2Proof.Machine
end

section
/-! SUPPORT. How long a string each function of the rules yields (spec/10_state.md R22, spec/43_base58check.md R193). -/

namespace Sys2Proof.Machine

/-! ## Strings of a length that the rule fixes -/

section
variable {a b : Bytes}

theorem length_reverseHexWordGroups (h : reverseHexWordGroups a = .ok b) : b.length = 64 := by
  unfold reverseHexWordGroups at h
  split at h
  · cases h; exact length_rearrange ..
  · cases h

@[simp] theorem length_serialize (version : BitVec 32) (prev : Vector Byte 32) (merkle : Uint256) (time : Vector Byte 4)
    (bits : BitVec 32) (nonce : Vector Byte 4) : (serialize version prev merkle time bits nonce).length = 80 := by
  simp [serialize]

theorem length_chunkswap80 (h : chunkswap80 a = .ok b) : b.length = 80 := by
  unfold chunkswap80 at h
  split at h
  · cases h; simpa
  · cases h

@[simp] theorem length_doubleHash (sha : HashFn) (b : Bytes) : (doubleHash sha b).length = 32 := by simp [doubleHash]

theorem length_payToPubkeyHash (h : payToPubkeyHash a = .ok b) : b.length = 25 := by
  unfold payToPubkeyHash at h
  split at h
  · cases h; simpa
  · cases h

theorem length_buildFromAddress {sha : HashFn} (h : buildFromAddress sha a = .ok b) : b.length = 25 := by
  unfold buildFromAddress at h
  split at h
  · cases h
  · exact length_payToPubkeyHash h

theorem length_powHash {pow : Vector Byte 80 → Vector Byte 32} (h : powHash pow a = .ok b) : b.length = 32 := by
  unfold powHash at h
  split at h
  · cases h
  · cases h; simp

theorem length_payload_le {sha : HashFn} {version : Byte} (h : decodeAddress sha a = .ok (version, b)) : b.length ≤ 20 := by
  unfold decodeAddress at h
  split at h
  · cases h
  · split at h
    · cases h
    · cases h; simp [addrPayload, slice]

/-! ## Decoded text is no longer than the text (R193): a digit is less than a byte, and a leading '1' becomes one byte -/

theorem digitVal_getD_lt (c : Byte) : (digitVal c).getD 0 < 58 := by
  revert c; decide

theorem base58Number_eq_ofDigits (l : List Nat) : base58Number l = Nat.ofDigits 58 l.reverse := by
  rw [Nat.ofDigits_eq_foldr, List.foldr_reverse]
  simp [base58Number, Nat.add_comm, Nat.mul_comm]

theorem textNumber_lt (text : Bytes) : textNumber text < 58 ^ text.length := by
  have hdigits : ∀ v ∈ (text.map fun c => (digitVal c).getD 0).reverse, v < 58 := by
    simpa using fun c _ => digitVal_getD_lt c
  rw [← base58Number_map_digitVal, base58Number_eq_ofDigits]
  simpa using Nat.ofDigits_lt_base_pow_length (by decide) hdigits

theorem textNumber_cons_one (text : Bytes) : textNumber (0x31#8 :: text) = textNumber text := by
  rw [← base58Number_map_digitVal, ← base58Number_map_digitVal]
  rfl

theorem leadingOnes_add_byteCount_le (text : Bytes) : leadingOnes text + byteCount (textNumber text) ≤ text.length := by
  induction text with
  | nil => decide
  | cons c text ih =>
    by_cases hc : c = 0x31#8
    · subst hc
      have hones : leadingOnes (0x31#8 :: text) = leadingOnes text + 1 := by simp [leadingOnes]
      rw [hones, textNumber_cons_one, List.length_cons]
      omega
    · have hones : leadingOnes (c :: text) = 0 := by simp [leadingOnes, hc]
      have hlt : textNumber (c :: text) < 256 ^ (c :: text).length :=
        (textNumber_lt _).trans_le (Nat.pow_le_pow_left (by decide) _)
      rw [hones, Nat.zero_add]
      exact byteCount_le hlt

theorem length_le_of_decodesTo {text r : Bytes} (h : DecodesTo text r) : r.length ≤ text.length := by
  obtain ⟨-, z, m, hz, hm, rfl⟩ := h
  rw [hasLeadingOnes_unique hz (hasLeadingOnes_leadingOnes text), isMinBytes_unique hm, List.length_append, length_rep,
    length_minbytes]
  exact leadingOnes_add_byteCount_le text

end

end Sys2Proof.Machine
end

section
/-! SUPPORT. What a host access does, which results fit the capacity of the s registers, and the number the `STATUS` word
stands for (spec/10_state.md R22, R25, R30). -/

namespace Sys2Proof.Machine

/-! ## Host accesses (R30, R61, R62) -/

section
variable {cap n : Nat} {run : Instr → State → Result} {v : RegValue} {s t : State}

theorem hostAct_read_of_some (r : RegName) (h : readReg r s.regs = some v) :
    hostAct (.read r.number) s = .next { s with lastRead := some v } := by
  simp only [hostAct, hostActBy, hostRead, regOfNumber_number, h]

theorem hostAct_read_of_none (r : RegName) (h : readReg r s.regs = none) :
    hostAct (.read r.number) s = .refused (.notReadable r.number) := by
  simp only [hostAct, hostActBy, hostRead, regOfNumber_number, h]

theorem hostAct_write_of_some (r : RegName) {g : Regs} (h : writeReg Config.cap r v s.regs = some g) :
    hostAct (.write r.number v) s = .next { s with regs := g } :=
  hostWriteBy_of_some (regOfNumber_number r) h

theorem hostAct_write_cmd {c : Word32} (h : asNumber 32 v = some c) :
    hostAct (.write RegName.cmd.number v) s = hostAct (.issue c) s := by
  simp only [hostAct, hostActBy, hostWriteBy, regOfNumber_number, h]

theorem hostRead_inv (h : hostRead n s = .next t) : ∃ v, t = { s with lastRead := some v } := by
  unfold hostRead at h
  split at h
  · cases h
  · split at h
    · cases h
    · cases h; exact ⟨_, rfl⟩

/-- An accepted write of `CMD` issues a word; any other stores a value in a register (R26, R61). -/
theorem hostWriteBy_inv (h : hostWriteBy cap run n v s = .next t) :
    (∃ c, hostIssueBy run c s = .next t) ∨ ∃ r g, writeReg cap r v s.regs = some g ∧ t = { s with regs := g } := by
  unfold hostWriteBy at h
  split at h
  · cases h
  · cases h
  · split at h
    · exact .inl ⟨_, h⟩
    · cases h
  · split at h
    · cases h; exact .inr ⟨_, _, ‹_›, rfl⟩
    · cases h

/-- An issued word runs the command it spells, or raises `IllegalCommand` (R94). -/
theorem hostIssueBy_inv {c : Word32} (h : hostIssueBy run c s = .next t) :
    (∃ i, run i s = .next t) ∨ t = raise .illegalCommand s := by
  unfold hostIssueBy at h
  split at h
  · exact .inl ⟨_, h⟩
  · cases h; exact .inr rfl

theorem length_asBytes_le {b : Bytes} (h : asBytes cap v = some b) : b.length ≤ cap := by
  cases v with
  | num n => cases h
  | bytes b' =>
    by_cases hle : b'.length ≤ cap
    · rw [asBytes_of_le hle] at h; cases h; exact hle
    · rw [asBytes_of_lt (by omega)] at h; cases h

/-- A write of the host's leaves the s file alone, or replaces one of its registers by a string of at most CAP bytes. -/
theorem writeReg_s {r : RegName} {g g' : Regs} (h : writeReg cap r v g = some g') :
    g'.s = g.s ∨ ∃ i b, b.length ≤ cap ∧ g'.s = g.s.set i b := by
  cases r with
  | s i =>
    obtain ⟨b, hb, rfl⟩ := Option.map_eq_some_iff.1 h
    exact .inr ⟨i, b, length_asBytes_le hb, rfl⟩
  | status => cases h
  | cmd => cases h
  | _ =>
    obtain ⟨x, -, rfl⟩ := Option.map_eq_some_iff.1 h
    exact .inl rfl

end

/-! ## The s registers within a capacity (R22) -/

section
variable {cap : Nat} {s t : State}

theorem fits_of_readS_eq (hs : s.Fits cap) (h : ∀ j, t.readS j = s.readS j) : t.Fits cap := fun j => h j ▸ hs j

theorem fits_of_readS_set {d : SIdx} (hs : s.Fits cap) (hd : (t.readS d).length ≤ cap)
    (h : ∀ j, j ≠ d → t.readS j = s.readS j) : t.Fits cap := by
  intro j
  by_cases hj : j = d
  · exact hj ▸ hd
  · exact h j hj ▸ hs j

theorem completeS_fits {d : SIdx} {r : Except CmdError Bytes} (hs : s.Fits cap) (hr : ∀ b, r = .ok b → b.length ≤ cap)
    (ht : completeS d r s = .next t) : t.Fits cap := by
  obtain ⟨b, hb, w⟩ | ⟨e, -, w⟩ := completeS_inv ht
  · exact fits_of_readS_set hs (w.dest ▸ hr b hb) w.otherS
  · exact fits_of_readS_eq hs w.allS

/-- The case of a function that yields strings of one length only. -/
theorem completeS_fits_of_length {n : Nat} {d : SIdx} {r : Except CmdError Bytes} (hs : s.Fits cap) (hn : n ≤ cap)
    (hr : ∀ {b}, r = .ok b → b.length = n) (ht : completeS d r s = .next t) : t.Fits cap :=
  completeS_fits hs (fun _ hb => (hr hb).trans_le hn) ht

/-- The case of a function that cannot fail. -/
theorem completeS_fits_of_ok {d : SIdx} {b : Bytes} (hs : s.Fits cap) (hb : b.length ≤ cap)
    (ht : completeS d (.ok b) s = .next t) : t.Fits cap :=
  completeS_fits hs (fun _ h => by cases h; exact hb) ht

theorem completeU_fits {d : UIdx} {r : Except CmdError Uint256} (hs : s.Fits cap) (ht : completeU d r s = .next t) :
    t.Fits cap := by
  obtain ⟨v, -, w⟩ | ⟨e, -, w⟩ := completeU_inv ht
  · exact fits_of_readS_eq hs w.allS
  · exact fits_of_readS_eq hs w.allS

theorem completeFlag_fits {f : Bool} (hs : s.Fits cap) (ht : completeFlag f s = .next t) : t.Fits cap :=
  fits_of_readS_eq hs (writesFlag_of_completeFlag ht).allS

theorem completeAddr_fits {d : SIdx} {r : Except CmdError (Byte × Bytes)} (hs : s.Fits cap)
    (hr : ∀ version payload, r = .ok (version, payload) → payload.length ≤ cap) (ht : completeAddr d r s = .next t) :
    t.Fits cap := by
  obtain ⟨version, payload, hp, w⟩ | ⟨e, -, w⟩ := completeAddr_inv ht
  · exact fits_of_readS_set hs (w.dest ▸ hr _ _ hp) w.otherS
  · exact fits_of_readS_eq hs w.allS

/-- No function of the rules yields more than 80 bytes, except that decoded text may be as long as its source (R193). -/
theorem execWith_fits {p : Params} {i : Instr} (hs : s.Fits p.cap) (ht : execWith p i s = .next t) : t.Fits p.cap := by
  have hcap := p.cap_ge
  have h32 : 32 ≤ p.cap := by omega
  cases i with
  | tole sd ua => exact completeS_fits_of_ok hs ((length_toBytesLE _).trans_le h32) ht
  | tobew sd ua => exact completeS_fits_of_ok hs ((length_toBytesBEWordwise _).trans_le h32) ht
  | rhwg sd sa => exact completeS_fits_of_length hs (by omega) length_reverseHexWordGroups ht
  | hser sd => exact completeS_fits_of_ok hs ((length_serialize ..).trans_le hcap) ht
  | wswap sd sa => exact completeS_fits_of_length hs hcap length_chunkswap80 ht
  | fromle | totgt => exact completeU_fits hs ht
  | meets ua ub => exact completeFlag_fits hs ht
  | b58dec sd sa | b58decLen sd sa n =>
    exact completeS_fits hs (fun b hb => (length_le_of_decodesTo (decodesTo_of_decode_ok hb)).trans (hs sa)) ht
  | b58addr sd sa => exact completeAddr_fits hs (fun _ _ hp => (length_payload_le hp).trans (by omega)) ht
  | dhash sd sa => exact completeS_fits_of_ok hs ((length_doubleHash ..).trans_le h32) ht
  | p2pkh sd sa => exact completeS_fits_of_length hs (by omega) length_payToPubkeyHash ht
  | addrscr sd sa => exact completeS_fits_of_length hs (by omega) length_buildFromAddress ht
  | powh sd sa => exact completeS_fits_of_length hs h32 length_powHash ht

@[simp] theorem readS_reset (i : SIdx) : State.reset.readS i = [] := by
  fin_cases i <;> rfl

theorem fits_reset (cap : Nat) : State.reset.Fits cap := fun i => by simp

variable {run : Instr → State → Result}

theorem hostIssueBy_fits (hrun : ∀ i, run i s = .next t → t.Fits cap) {c : Word32} (hs : s.Fits cap)
    (ht : hostIssueBy run c s = .next t) : t.Fits cap := by
  obtain ⟨i, hi⟩ | rfl := hostIssueBy_inv ht
  · exact hrun i hi
  · exact hs

theorem hostWriteBy_fits (hrun : ∀ i, run i s = .next t → t.Fits cap) {n : Nat} {v : RegValue} (hs : s.Fits cap)
    (ht : hostWriteBy cap run n v s = .next t) : t.Fits cap := by
  obtain ⟨c, hc⟩ | ⟨r, g, hg, rfl⟩ := hostWriteBy_inv ht
  · exact hostIssueBy_fits hrun hs hc
  obtain heq | ⟨i, b, hb, heq⟩ := writeReg_s hg
  · exact fits_of_readS_eq hs fun j => congrArg (Bank.get · j) heq
  · have hread : ∀ j, State.readS { s with regs := g } j = (s.writeS i b).readS j := fun j => congrArg (Bank.get · j) heq
    exact fits_of_readS_eq (fits_of_readS_set hs (by simpa) (readS_writeS_other s i · b)) hread

theorem hostActBy_fits (hrun : ∀ i, run i s = .next t → t.Fits cap) {a : HostAction} (hs : s.Fits cap)
    (ht : hostActBy cap run a s = .next t) : t.Fits cap := by
  cases a with
  | read n => obtain ⟨v, rfl⟩ := hostRead_inv ht; exact hs
  | write n v => exact hostWriteBy_fits hrun hs ht
  | issue c => exact hostIssueBy_fits hrun hs ht
  | reset => cases ht; exact fits_reset cap

theorem stepWith_fits {p : Params} (hs : s.Fits p.cap) (ht : stepWith p s = .next t) : t.Fits p.cap := by
  cases hq : s.hostQueue with
  | nil =>
    rw [stepWith, hostStepBy, hq] at ht
    cases ht; exact hs
  | cons a rest =>
    rw [stepWith, hostStepBy, hq] at ht
    have hrest : State.Fits p.cap { s with hostQueue := rest } := hs
    exact hostActBy_fits (fun i => execWith_fits hrest) hrest ht

end

/-! ## The `STATUS` word (R25) -/

/-- The three fields stand side by side in the word, so that none carries into another. -/
theorem toNat_statusWord (st : Status) :
    (statusWord st).toNat = st.aver.toNat * 2 ^ 16 + st.flag.toNat * 2 ^ 8 + st.err.toByte.toNat := by
  have haver := st.aver.isLt
  have hflag := st.flag.toNat_lt
  have herr := st.err.toByte.isLt
  rw [statusWord, BitVec.toNat_ofNat]
  omega

theorem toNat_extractLsb'_statusWord (st : Status) (start len : Nat) :
    ((statusWord st).extractLsb' start len).toNat =
      (st.aver.toNat * 2 ^ 16 + st.flag.toNat * 2 ^ 8 + st.err.toByte.toNat) / 2 ^ start % 2 ^ len := by
  rw [BitVec.extractLsb'_toNat, toNat_statusWord, Nat.shiftRight_eq_div_pow]

end Sys2Proof.Machine
end

section
/-! SUPPORT. The statements about the state and its registers (spec/10_state.md). -/

namespace Sys2Proof.Machine

/-- Settles O20: the machine is the core at `machineParams`, and every step of the core fits its CAP. -/
theorem everyStepKeepsCapacity : Obligations.EveryStepKeepsCapacity := by
  refine ⟨fun s t hs ht => ?_, fun p s t hs ht => stepWith_fits hs ht⟩
  rw [step_eq_stepWith] at ht
  exact stepWith_fits (p := machineParams) hs ht

/-- Settles O24, by the way the command completes. -/
theorem commandsKeepTheRegistersTheyDoNotWrite : Obligations.CommandsKeepTheRegistersTheyDoNotWrite := by
  intro i s t ht
  cases i with
  | tole | tobew | hser | dhash =>
    obtain ⟨hrest, hflag, haver⟩ := completeS_frame (r := .ok _) ht
    exact ⟨hrest, fun _ => hflag, fun _ => haver⟩
  | fromle | totgt =>
    obtain ⟨hrest, hflag, haver⟩ := completeU_frame ht
    exact ⟨hrest, fun _ => hflag, fun _ => haver⟩
  | meets ua ub =>
    have w := writesFlag_of_completeFlag ht
    exact ⟨w.toKeepsRest, fun h => absurd rfl (h ua ub), fun _ => w.aver⟩
  | b58addr sd sa =>
    obtain ⟨hrest, hflag⟩ := completeAddr_frame ht
    exact ⟨hrest, fun _ => hflag, fun h => absurd rfl (h sd sa)⟩
  | _ =>
    obtain ⟨hrest, hflag, haver⟩ := completeS_frame ht
    exact ⟨hrest, fun _ => hflag, fun _ => haver⟩

/-- Settles O25: each command completes with a function of its sources. -/
theorem commandDependsOnlyOnItsSources : Obligations.CommandDependsOnlyOnItsSources := by
  intro i s s' t t' h ht ht'
  cases i with
  | tole sd ua => exact completeS_agree_of_ok (congrArg toBytesLE h) ht ht'
  | fromle ud sa => exact completeU_agree (congrArg fromBytesLE h) ht ht'
  | tobew sd ua => exact completeS_agree_of_ok (congrArg toBytesBEWordwise h) ht ht'
  | rhwg sd sa => exact completeS_agree (congrArg reverseHexWordGroups h) ht ht'
  | hser sd =>
    obtain ⟨hversion, hprev, hmerkle, htime, hbits, hnonce⟩ := h
    have heq : serializeRegs s.regs = serializeRegs s'.regs := by
      simp only [serializeRegs, hversion, hprev, hmerkle, htime, hbits, hnonce]
    exact completeS_agree_of_ok heq ht ht'
  | wswap sd sa => exact completeS_agree (congrArg chunkswap80 h) ht ht'
  | totgt ud => exact completeU_agree (congrArg (toTarget Config.maxTarget) (congrArg BitVec.toNat h)) ht ht'
  | meets ua ub => exact completeFlag_agree (congrArg₂ meetsTarget h.1 h.2) ht ht'
  | b58dec sd sa => exact completeS_agree (congrArg (decode · none) h) ht ht'
  | b58decLen sd sa n => exact completeS_agree (congrArg (decode · (some n)) h) ht ht'
  | b58addr sd sa => exact completeAddr_agree (congrArg (decodeAddress sha256Port) h) ht ht'
  | dhash sd sa => exact completeS_agree_of_ok (congrArg (doubleHash sha256Port) h) ht ht'
  | p2pkh sd sa => exact completeS_agree (congrArg payToPubkeyHash h) ht ht'
  | addrscr sd sa => exact completeS_agree (congrArg (buildFromAddress sha256Port) h) ht ht'
  | powh sd sa => exact completeS_agree (congrArg (powHash powHashPort) h) ht ht'

/-- Settles O8, with the two facts about register 0x50. -/
theorem writingCmdIsIssuing : Obligations.WritingCmdIsIssuing := fun _ =>
  ⟨fun c => hostAct_write_cmd (asNumber_toNat c), hostAct_read_of_none .cmd rfl⟩

/-- Settles O11: an empty queue is the first case of a step. -/
theorem stepWithoutHostActionChangesNothing : Obligations.StepWithoutHostActionChangesNothing := by
  intro s hs
  rw [step, hostStep, hostStepBy, hs]

/-- Settles O12, register by register in the order of the table. -/
theorem hostReadReturnsTheRegister : Obligations.HostReadReturnsTheRegister := fun _ =>
  ⟨fun i => hostAct_read_of_some (.u i) rfl, fun i => hostAct_read_of_some (.s i) rfl,
    hostAct_read_of_some .hversion rfl, hostAct_read_of_some .hprev rfl, hostAct_read_of_some .hmerkle rfl,
    hostAct_read_of_some .htime rfl, hostAct_read_of_some .hbits rfl, hostAct_read_of_some .hnonce rfl,
    hostAct_read_of_some .diff rfl, hostAct_read_of_some .status rfl, hostAct_read_of_none .cmd rfl⟩

/-- Settles O13, register by register in the order of the table. -/
theorem hostWriteStoresTheValue : Obligations.HostWriteStoresTheValue := by
  intro s
  refine ⟨fun i v => ?_, fun i b hb => ?_, fun v => ?_, fun b => ?_, fun v => ?_, fun b => ?_, fun v => ?_, fun b => ?_,
    fun v => ?_⟩
  · exact hostAct_write_of_some (.u i) (congrArg (Option.map _) (asNumber_toNat v))
  · exact hostAct_write_of_some (.s i) (congrArg (Option.map _) (asBytes_of_le hb))
  · exact hostAct_write_of_some .hversion (congrArg (Option.map _) (asNumber_toNat v))
  · exact hostAct_write_of_some .hprev (congrArg (Option.map _) (toFixed_toList b))
  · exact hostAct_write_of_some .hmerkle (congrArg (Option.map _) (asNumber_toNat v))
  · exact hostAct_write_of_some .htime (congrArg (Option.map _) (toFixed_toList b))
  · exact hostAct_write_of_some .hbits (congrArg (Option.map _) (asNumber_toNat v))
  · exact hostAct_write_of_some .hnonce (congrArg (Option.map _) (toFixed_toList b))
  · exact hostAct_write_of_some .diff (congrArg (Option.map _) (asNumber_toNat v))

/-- Settles O17, field by field, by the number each field stands for. -/
theorem statusWordHasItsFieldsInPlace : Obligations.StatusWordHasItsFieldsInPlace := by
  intro st
  have haver := st.aver.isLt
  have hflag := st.flag.toNat_lt
  have herr := st.err.toByte.isLt
  refine ⟨?_, ?_, ?_, ?_, ?_⟩ <;> apply BitVec.eq_of_toNat_eq <;> rw [toNat_extractLsb'_statusWord]
  · omega
  · rw [BitVec.toNat_ofBool]; omega
  · rw [BitVec.toNat_ofNat]; omega
  · omega
  · rw [BitVec.toNat_ofNat]; omega

/-- Settles O19: every s register is empty after reset. -/
theorem resetStateSatisfiesCapacity : Obligations.ResetStateSatisfiesCapacity := fits_reset Config.cap

end Sys2Proof.Machine
end

section
/-! SUPPORT. The decoder reads back the word of every well-formed command (spec/30_encoding.md R94, R101), from the fields
of the word. -/

namespace Sys2Proof

/-- The fields of the word of any command, from the lemmas of Laws/PerInstr.lean. -/
theorem fields_encode : ∀ i : Instr, Laws.EncodeFields.Statement i
  | .tole _ _ => Laws.EncodeFields.tole _ _
  | .fromle _ _ => Laws.EncodeFields.fromle _ _
  | .tobew _ _ => Laws.EncodeFields.tobew _ _
  | .rhwg _ _ => Laws.EncodeFields.rhwg _ _
  | .hser _ => Laws.EncodeFields.hser _
  | .wswap _ _ => Laws.EncodeFields.wswap _ _
  | .totgt _ => Laws.EncodeFields.totgt _
  | .meets _ _ => Laws.EncodeFields.meets _ _
  | .b58dec _ _ => Laws.EncodeFields.b58dec _ _
  | .b58decLen _ _ _ => Laws.EncodeFields.b58decLen _ _ _
  | .b58addr _ _ => Laws.EncodeFields.b58addr _ _
  | .dhash _ _ => Laws.EncodeFields.dhash _ _
  | .p2pkh _ _ => Laws.EncodeFields.p2pkh _ _
  | .addrscr _ _ => Laws.EncodeFields.addrscr _ _
  | .powh _ _ => Laws.EncodeFields.powh _ _

/-! ## The operands of a command as the decoder checks them -/

theorem Instr.rd_le_three (i : Instr) : i.rd ≤ 3 := by
  cases i <;> simp only [Instr.rd] <;> omega

theorem Instr.ra_le_three (i : Instr) : i.ra ≤ 3 := by
  cases i <;> simp only [Instr.ra] <;> omega

theorem Instr.rb_le_three (i : Instr) : i.rb ≤ 3 := by
  cases i <;> simp only [Instr.rb] <;> omega

theorem Instr.rd_eq_zero {i : Instr} (h : i.op.usesRd = false) : i.rd = 0 := by
  cases i with
  | meets => rfl
  | _ => nomatch h

theorem Instr.ra_eq_zero {i : Instr} (h : i.op.usesRa = false) : i.ra = 0 := by
  cases i with
  | hser | totgt => rfl
  | _ => nomatch h

theorem Instr.rb_eq_zero {i : Instr} (h : i.op.usesRb = false) : i.rb = 0 := by
  cases i with
  | meets => nomatch h
  | _ => rfl

/-- Without an expected length a command has zero in E and in ELEN alike (R92). -/
theorem Instr.e_elen_eq_zero {i : Instr} (h : i.op.takesLength = false ∨ i.e = 0) : i.e = 0 ∧ i.elen = 0 := by
  cases i with
  | b58decLen => exact absurd h nofun
  | _ => exact ⟨rfl, rfl⟩

theorem checkField_eq_none {used : Bool} {v : BitVec 4} (hle : v.toNat ≤ 3) (hz : used = false → v.toNat = 0) :
    checkField used v = none := by
  cases used with
  | true => simpa [checkField] using hle
  | false => simpa [checkField] using BitVec.eq_of_toNat_eq (hz rfl)

theorem regIndex_eq {v : BitVec 4} {k : Fin 4} (h : v.toNat = k.val) : regIndex v = k := by
  rw [regIndex, h]; exact Fin.ofNat_val_eq_self k

/-! ## Decoding -/

theorem firstIllegal_encode {i : Instr} (hi : i.wellFormed = true) : firstIllegal i.op (encode i) = none := by
  obtain ⟨-, hrd, hra, hrb, hz, he, helen⟩ := fields_encode i hi
  have hd : checkField i.op.usesRd (rdField (encode i)) = none :=
    checkField_eq_none (hrd ▸ i.rd_le_three) fun h => hrd.trans (Instr.rd_eq_zero h)
  have ha : checkField i.op.usesRa (raField (encode i)) = none :=
    checkField_eq_none (hra ▸ i.ra_le_three) fun h => hra.trans (Instr.ra_eq_zero h)
  have hb : checkField i.op.usesRb (rbField (encode i)) = none :=
    checkField_eq_none (hrb ▸ i.rb_le_three) fun h => hrb.trans (Instr.rb_eq_zero h)
  have hlen : i.op.takesLength = false ∨ eField (encode i) = 0#1 → eField (encode i) = 0#1 ∧ elenField (encode i) = 0#8 := by
    simp only [← BitVec.toNat_inj, he, helen]
    exact Instr.e_elen_eq_zero
  unfold firstIllegal
  rw [hz, hd, ha, hb]
  cases ht : i.op.takesLength with
  | true => simpa using fun h => (hlen (.inr h)).2
  | false => simpa using hlen (.inl ht)

theorem buildInstr_encode {i : Instr} (hi : i.wellFormed = true) : buildInstr i.op (encode i) = i := by
  obtain ⟨-, hrd, hra, hrb, -, he, helen⟩ := fields_encode i hi
  cases i with
  | meets => simp only [buildInstr, Instr.op, regIndex_eq hra, regIndex_eq hrb]
  | hser | totgt => simp only [buildInstr, Instr.op, regIndex_eq hrd]
  | b58dec =>
    have hE : eField (encode (.b58dec _ _)) ≠ 1#1 := fun h => by rw [h] at he; cases he
    simp only [buildInstr, Instr.op, regIndex_eq hrd, regIndex_eq hra, if_neg hE]
  | b58decLen =>
    have hE : eField (encode (.b58decLen _ _ _)) = 1#1 := BitVec.eq_of_toNat_eq he
    simp only [buildInstr, Instr.op, regIndex_eq hrd, regIndex_eq hra, if_pos hE, helen, Instr.elen]
  | _ => simp only [buildInstr, Instr.op, regIndex_eq hrd, regIndex_eq hra]

theorem decodeWord_of_firstIllegal {c : Word32} {op : Op} (hop : (opcField c).toNat = op.code)
    (hc : firstIllegal op c = none) : decodeWord c = .ok (buildInstr op c) := by
  simp only [decodeWord, hop, opOfCode_code, hc]

/-- R101: the decoder reads back the word of a well-formed command, with every operand. -/
theorem decodeWord_encode {i : Instr} (hi : i.wellFormed = true) : decodeWord (encode i) = .ok i := by
  obtain ⟨hop, -⟩ := fields_encode i hi
  rw [decodeWord_of_firstIllegal hop (firstIllegal_encode hi), buildInstr_encode hi]

end Sys2Proof
end

section
/-! SUPPORT. Host accesses taken apart further: a step that has an action to take, a write that was accepted, and the
accesses that are refused (spec/20_memory.md R61, R62). -/

namespace Sys2Proof.Machine

section
variable {cap n : Nat} {run : Instr → State → Result} {v : RegValue} {s t : State}

/-! ## The action a step takes -/

theorem step_of_hostQueue_cons {a : HostAction} {rest : List HostAction} (h : s.hostQueue = a :: rest) :
    step s = hostAct a { s with hostQueue := rest } := by
  rw [step, hostStep, hostStepBy, h]; rfl

/-! ## Accepted writes -/

theorem eq_of_asBytes {b : Bytes} (h : asBytes cap v = some b) : v = .bytes b := by
  cases v with
  | num => cases h
  | bytes b' =>
    simp only [asBytes, Option.ite_none_right_eq_some, Option.some.injEq] at h
    rw [h.2]

/-- The typed value a register stores is, read back, the value the host sent. -/
theorem readReg_writeReg {r : RegName} {g g' : Regs} (h : writeReg cap r v g = some g') : readReg r g' = some v := by
  cases r with
  | status | cmd => cases h
  | u i =>
    obtain ⟨x, hx, rfl⟩ := Option.map_eq_some_iff.1 h
    simp only [readReg, Bank.get_set_same, eq_of_asNumber hx]
  | s i =>
    obtain ⟨b, hb, rfl⟩ := Option.map_eq_some_iff.1 h
    simp only [readReg, Bank.get_set_same, eq_of_asBytes hb]
  | hprev | htime | hnonce =>
    obtain ⟨b, hb, rfl⟩ := Option.map_eq_some_iff.1 h
    exact congrArg some (eq_of_asFixed hb).symm
  | _ =>
    obtain ⟨x, hx, rfl⟩ := Option.map_eq_some_iff.1 h
    exact congrArg some (eq_of_asNumber hx).symm

/-- Other than a write of `CMD`, an accepted write has stored its value in the register the number names. -/
theorem hostWriteBy_inv_of_ne_cmd (hn : n ≠ RegName.cmd.number) (h : hostWriteBy cap run n v s = .next t) :
    ∃ r g, r.number = n ∧ writeReg cap r v s.regs = some g ∧ t = { s with regs := g } := by
  unfold hostWriteBy at h
  split at h
  · cases h
  · cases h
  · next hreg => exact absurd (number_of_regOfNumber hreg).symm hn
  · next r _ _ hreg =>
    split at h
    · next g hg => cases h; exact ⟨r, g, number_of_regOfNumber hreg, hg, rfl⟩
    · cases h

/-! ## Refused accesses (R62) -/

theorem hostAct_write_of_none (r : RegName) (hw : writeReg Config.cap r v s.regs = none) (hs : r ≠ .status := by nofun)
    (hc : r ≠ .cmd := by nofun) : hostAct (.write r.number v) s = .refused (.illTyped r.number) :=
  hostWriteBy_of_none (regOfNumber_number r) hs hc hw

theorem hostAct_write_cmd_of_none (h : asNumber 32 v = none) :
    hostAct (.write RegName.cmd.number v) s = .refused (.illTyped RegName.cmd.number) := by
  simp only [hostAct, hostActBy, hostWriteBy, regOfNumber_number, h]

theorem hostAct_write_status (v : RegValue) (s : State) :
    hostAct (.write RegName.status.number v) s = .refused (.notWritable RegName.status.number) := by
  simp only [hostAct, hostActBy, hostWriteBy, regOfNumber_number]

theorem regOfNumber_eq_none (h : ∀ r : RegName, r.number ≠ n) : regOfNumber n = none :=
  Option.eq_none_iff_forall_ne_some.2 fun r hr => h r (number_of_regOfNumber hr)

theorem hostAct_read_of_unlisted (h : ∀ r : RegName, r.number ≠ n) (s : State) :
    hostAct (.read n) s = .refused (.noSuchRegister n) := by
  simp only [hostAct, hostActBy, hostRead, regOfNumber_eq_none h]

theorem hostAct_write_of_unlisted (h : ∀ r : RegName, r.number ≠ n) (v : RegValue) (s : State) :
    hostAct (.write n v) s = .refused (.noSuchRegister n) := by
  simp only [hostAct, hostActBy, hostWriteBy, regOfNumber_eq_none h]

end

end Sys2Proof.Machine
end

section
/-! SUPPORT. The statements about the host's accesses and their order (spec/20_memory.md). -/

namespace Sys2Proof.Machine

/-- Settles O9, by induction on the actions: none of them looks at the queue behind it. -/
theorem runningIsFoldingTheHostActions : Obligations.RunningIsFoldingTheHostActions := by
  intro actions rest s
  induction actions generalizing s with
  | nil => rfl
  | cons a as ih =>
    have hstep : step { s with hostQueue := a :: (as ++ rest) } = withQueue (as ++ rest) (hostAct a s) :=
      (step_of_hostQueue_cons rfl).trans (hostAct_withQueue a s (as ++ rest))
    simp only [List.length_cons, List.cons_append, Host.Core.run, core, hostActs, hstep, hostAct_withQueue a s rest]
    cases hostAct a s with
    | next t => exact ih t
    | fault f => rfl
    | refused r => rfl

/-- Settles O10, by induction on the program: each word decodes to its command. -/
theorem issuingTheWordsOfAProgramExecutesIt : Obligations.IssuingTheWordsOfAProgramExecutesIt := by
  intro program s hwf
  induction program generalizing s with
  | nil => rfl
  | cons i is ih =>
    obtain ⟨hi, his⟩ := List.forall_mem_cons.1 hwf
    rw [List.map_cons, hostActs_issue, hostIssue_of_ok (decodeWord_encode hi), execAll]
    cases exec i s with
    | next t => exact ih t his
    | fault f => rfl
    | refused r => rfl

/-- Settles O15: an accepted write has stored its value in the register it names. -/
theorem readAfterWriteReturnsTheValueWritten : Obligations.ReadAfterWriteReturnsTheValueWritten := by
  intro n v s t hn ht
  obtain ⟨r, g, rfl, hg, rfl⟩ := hostWriteBy_inv_of_ne_cmd hn ht
  exact hostAct_read_of_some r (readReg_writeReg hg)

/-- Settles O6: a step takes the next action, and that action runs the command its word spells. -/
theorem stepRunsTheIssuedCommand : Obligations.StepRunsTheIssuedCommand := by
  intro s c rest i hq hd
  rw [step_of_hostQueue_cons hq]
  exact hostIssue_of_ok hd _

/-- Settles O14, access by access in the order of the statement. -/
theorem whatIsNoHostActionIsRefused : Obligations.WhatIsNoHostActionIsRefused := by
  intro s
  refine ⟨fun i n hn => ?_, fun i b => ?_, fun i b hb => ?_, fun i n => ?_, fun b hb => ?_, fun b hb => ?_, fun b hb => ?_,
    fun n hn => ?_, fun n hn => ?_, fun n hn => ?_, fun n hn => ?_, fun n hn => ?_, ?_, ?_,
    hostAct_read_of_none .cmd rfl, fun v => hostAct_write_status v s,
    fun n hn => ⟨hostAct_read_of_unlisted hn s, fun v => hostAct_write_of_unlisted hn v s⟩⟩
  · exact hostAct_write_of_none (.u i) (congrArg (Option.map _) (asNumber_none hn))
  · exact hostAct_write_of_none (.u i) rfl
  · exact hostAct_write_of_none (.s i) (congrArg (Option.map _) (asBytes_of_lt hb))
  · exact hostAct_write_of_none (.s i) rfl
  · exact hostAct_write_of_none .hprev (congrArg (Option.map _) (toFixed_none hb))
  · exact hostAct_write_of_none .htime (congrArg (Option.map _) (toFixed_none hb))
  · exact hostAct_write_of_none .hnonce (congrArg (Option.map _) (toFixed_none hb))
  · exact hostAct_write_of_none .hversion (congrArg (Option.map _) (asNumber_none hn))
  · exact hostAct_write_of_none .hmerkle (congrArg (Option.map _) (asNumber_none hn))
  · exact hostAct_write_of_none .hbits (congrArg (Option.map _) (asNumber_none hn))
  · exact hostAct_write_of_none .diff (congrArg (Option.map _) (asNumber_none hn))
  · exact hostAct_write_cmd_of_none (asNumber_none hn)
  · simp only [List.forall_mem_cons]
    exact ⟨fun _ => hostAct_write_of_none .hversion rfl, fun _ => hostAct_write_of_none .hmerkle rfl,
      fun _ => hostAct_write_of_none .hbits rfl, fun _ => hostAct_write_of_none .diff rfl,
      fun _ => hostAct_write_cmd_of_none rfl, nofun⟩
  · simp only [List.forall_mem_cons]
    exact ⟨fun _ => hostAct_write_of_none .hprev rfl, fun _ => hostAct_write_of_none .htime rfl,
      fun _ => hostAct_write_of_none .hnonce rfl, nofun⟩

end Sys2Proof.Machine
end

section
/-! SUPPORT. The decoder in the other direction (spec/30_encoding.md R94, R101): which words pass its checks, and what the
command of such a word holds. -/

namespace Sys2Proof

/-! ## Which words decode -/

theorem checkField_eq_none_iff (used : Bool) (v : BitVec 4) :
    checkField used v = none ↔ if used then v.toNat ≤ 3 else v = 0#4 := by
  cases used <;> simp [checkField]

theorem Op.takesLength_iff (op : Op) : op.takesLength = true ↔ op = .b58dec := by
  cases op <;> decide

/-- The conditions of R94 on a word whose opcode is known, field by field. -/
theorem firstIllegal_eq_none_iff (op : Op) (c : Word32) : firstIllegal op c = none ↔
    zField c = 0#3 ∧ (if op.usesRd then (rdField c).toNat ≤ 3 else rdField c = 0#4) ∧
      (if op.usesRa then (raField c).toNat ≤ 3 else raField c = 0#4) ∧
      (if op.usesRb then (rbField c).toNat ≤ 3 else rbField c = 0#4) ∧
      (op ≠ .b58dec → eField c = 0#1 ∧ elenField c = 0#8) ∧ (op = .b58dec → eField c = 0#1 → elenField c = 0#8) := by
  simp only [← checkField_eq_none_iff, ne_eq, ← Op.takesLength_iff]
  constructor
  · intro h
    obtain ⟨hz, hd, ha, hb, hlen⟩ := firstIllegal_none h
    cases ht : op.takesLength <;> simp_all
  · rintro ⟨hz, hd, ha, hb, hno, hlen⟩
    cases ht : op.takesLength <;> simp_all [firstIllegal]

theorem decodeWord_eq_ok_iff {c : Word32} {i : Instr} : decodeWord c = .ok i ↔
    ∃ op : Op, op.code = (opcField c).toNat ∧ firstIllegal op c = none ∧ buildInstr op c = i := by
  constructor
  · intro h
    unfold decodeWord at h
    split at h
    · cases h
    · next op hop =>
      split at h
      · cases h
      · next hc => exact ⟨op, opOfCode_some hop, hc, Except.ok.inj h⟩
  · rintro ⟨op, hop, hc, rfl⟩
    exact decodeWord_of_firstIllegal hop.symm hc

/-! ## The command of a word that passes the checks -/

section
variable {op : Op} {c : Word32}

theorem buildInstr_of_e_zero (h : eField c = 0#1) :
    buildInstr .b58dec c = .b58dec (regIndex (rdField c)) (regIndex (raField c)) := if_neg (by rw [h]; decide)

theorem buildInstr_of_e_one (h : eField c = 1#1) :
    buildInstr .b58dec c = .b58decLen (regIndex (rdField c)) (regIndex (raField c)) (elenField c).toNat := if_pos h

/-- R94: the command of a word that passes the checks is well-formed, and its opcode and operands are the word's fields. -/
theorem buildInstr_of_firstIllegal (hc : firstIllegal op c = none) :
    (buildInstr op c).wellFormed = true ∧ (buildInstr op c).op = op ∧ (buildInstr op c).rd = (rdField c).toNat ∧
      (buildInstr op c).ra = (raField c).toNat ∧ (buildInstr op c).rb = (rbField c).toNat ∧
      (buildInstr op c).e = (eField c).toNat ∧ (buildInstr op c).elen = (elenField c).toNat := by
  obtain ⟨-, hd, ha, hb, -⟩ := firstIllegal_none hc
  obtain ⟨-, -, -, -, hno, hlen⟩ := (firstIllegal_eq_none_iff op c).1 hc
  cases op with
  | meets =>
    obtain ⟨he, helen⟩ := hno nofun
    rw [eq_zero_of_checkField hd, he, helen]
    exact ⟨rfl, rfl, rfl, val_regIndex ha, val_regIndex hb, rfl, rfl⟩
  | hser | totgt =>
    obtain ⟨he, helen⟩ := hno nofun
    rw [eq_zero_of_checkField ha, eq_zero_of_checkField hb, he, helen]
    exact ⟨rfl, rfl, val_regIndex hd, rfl, rfl, rfl, rfl⟩
  | b58dec =>
    rw [eq_zero_of_checkField hb]
    obtain he | he := BitVec.eq_zero_or_eq_one (eField c)
    · rw [buildInstr_of_e_zero he, he, hlen rfl he]
      exact ⟨rfl, rfl, val_regIndex hd, val_regIndex ha, rfl, rfl, rfl⟩
    · have hfits : expectedLengthFits (elenField c).toNat = true := decide_eq_true (Nat.le_of_lt_succ (elenField c).isLt)
      rw [buildInstr_of_e_one he, he]
      exact ⟨hfits, rfl, val_regIndex hd, val_regIndex ha, rfl, rfl, rfl⟩
  | _ =>
    obtain ⟨he, helen⟩ := hno nofun
    rw [eq_zero_of_checkField hb, he, helen]
    exact ⟨rfl, rfl, val_regIndex hd, val_regIndex ha, rfl, rfl, rfl⟩

end

section
variable {c : Word32} {i : Instr}

theorem fields_of_decodeWord (h : decodeWord c = .ok i) :
    i.op.code = (opcField c).toNat ∧ i.rd = (rdField c).toNat ∧ i.ra = (raField c).toNat ∧ i.rb = (rbField c).toNat ∧
      i.e = (eField c).toNat ∧ i.elen = (elenField c).toNat := by
  obtain ⟨op, hcode, hc, rfl⟩ := decodeWord_eq_ok_iff.1 h
  obtain ⟨-, hop, hfields⟩ := buildInstr_of_firstIllegal hc
  exact ⟨(congrArg Op.code hop).trans hcode, hfields⟩

theorem firstIllegal_of_decodeWord (h : decodeWord c = .ok i) : firstIllegal i.op c = none := by
  obtain ⟨op, -, hc, rfl⟩ := decodeWord_eq_ok_iff.1 h
  obtain ⟨-, hop, -⟩ := buildInstr_of_firstIllegal hc
  rwa [hop]

theorem wellFormed_of_decodeWord (h : decodeWord c = .ok i) : i.wellFormed = true := by
  obtain ⟨op, -, hc, rfl⟩ := decodeWord_eq_ok_iff.1 h
  exact (buildInstr_of_firstIllegal hc).1

/-- R94: no bit of a word that decodes is dropped, since each is in a field that its command holds or is reserved and 0. -/
theorem encode_of_decodeWord (h : decodeWord c = .ok i) : encode i = c := by
  obtain ⟨hop, hd, ha, hb, he, helen⟩ := fields_of_decodeWord h
  obtain ⟨hz, -⟩ := firstIllegal_none (firstIllegal_of_decodeWord h)
  have hsum := toNat_eq_fields c
  simp only [hz, BitVec.toNat_zero, Nat.zero_mul, Nat.add_zero] at hsum
  rw [encode, hop, hd, ha, hb, he, helen, ← hsum, BitVec.ofNat_toNat, BitVec.setWidth_eq]

end

end Sys2Proof
end

section
/-! SUPPORT. The rows of the opcode table as conditions on the fields of a word (spec/30_encoding.md R101). -/

namespace Sys2Proof

/-! ## A word and its fields -/

/-- Words with equal fields are equal, since a word is its fields (R90). -/
theorem eq_iff_fields {w w' : Word32} : w = w' ↔
    opcField w = opcField w' ∧ rdField w = rdField w' ∧ raField w = raField w' ∧ rbField w = rbField w' ∧
      zField w = zField w' ∧ eField w = eField w' ∧ elenField w = elenField w' := by
  constructor
  · rintro rfl
    exact ⟨rfl, rfl, rfl, rfl, rfl, rfl, rfl⟩
  · rintro ⟨hop, hd, ha, hb, hz, he, helen⟩
    apply BitVec.eq_of_toNat_eq
    rw [toNat_eq_fields w, toNat_eq_fields w', hop, hd, ha, hb, hz, he, helen]

/-- Each field of a masked word is that field of the word, masked. -/
theorem and_eq_iff_fields {w m p : Word32} : w &&& m = p ↔
    opcField w &&& opcField m = opcField p ∧ rdField w &&& rdField m = rdField p ∧
      raField w &&& raField m = raField p ∧ rbField w &&& rbField m = rbField p ∧ zField w &&& zField m = zField p ∧
      eField w &&& eField m = eField p ∧ elenField w &&& elenField m = elenField p := by
  rw [eq_iff_fields]
  simp only [opcField, rdField, raField, rbField, zField, eField, elenField, BitVec.extractLsb'_and]

/-! ## The rows -/

/-- The mask of a register field: the two bits of an index are free where the field is used (R101). -/
def fieldMask (used : Bool) : BitVec 4 := if used then 0xC#4 else 0xF#4

theorem and_fieldMask_eq_zero (used : Bool) (v : BitVec 4) :
    v &&& fieldMask used = 0#4 ↔ if used then v.toNat ≤ 3 else v = 0#4 := by
  revert used v; decide

theorem row_mask_fields (j : Instr) :
    opcField j.row.mask = .allOnes 8 ∧ rdField j.row.mask = fieldMask j.op.usesRd ∧
      raField j.row.mask = fieldMask j.op.usesRa ∧ rbField j.row.mask = fieldMask j.op.usesRb ∧
      zField j.row.mask = .allOnes 3 ∧ eField j.row.mask = .allOnes 1 ∧
      elenField j.row.mask = if j.e = 0 then .allOnes 8 else 0#8 := by
  cases j <;> dsimp only [Instr.row, Instr.op, Instr.e] <;> exact ⟨rfl, rfl, rfl, rfl, rfl, rfl, rfl⟩

theorem row_pattern_fields (j : Instr) :
    (opcField j.row.pattern).toNat = j.op.code ∧ rdField j.row.pattern = 0#4 ∧ raField j.row.pattern = 0#4 ∧
      rbField j.row.pattern = 0#4 ∧ zField j.row.pattern = 0#3 ∧ (eField j.row.pattern).toNat = j.e ∧
      elenField j.row.pattern = 0#8 := by
  cases j <;> dsimp only [Instr.row, Instr.op, Instr.e] <;> exact ⟨rfl, rfl, rfl, rfl, rfl, rfl, rfl⟩

theorem Instr.e_eq_zero_of_op_ne {i : Instr} (h : i.op ≠ .b58dec) : i.e = 0 :=
  (Instr.e_elen_eq_zero (.inl (Bool.eq_false_iff.2 (mt i.op.takesLength_iff.1 h)))).1

/-- The mask and the match value of a row ask for its opcode, for its E, and for the other fields what R94 asks for. -/
theorem and_mask_eq_pattern_iff_fields (c : Word32) (j : Instr) : c &&& j.row.mask = j.row.pattern ↔
    j.op.code = (opcField c).toNat ∧ (if j.op.usesRd then (rdField c).toNat ≤ 3 else rdField c = 0#4) ∧
      (if j.op.usesRa then (raField c).toNat ≤ 3 else raField c = 0#4) ∧
      (if j.op.usesRb then (rbField c).toNat ≤ 3 else rbField c = 0#4) ∧
      zField c = 0#3 ∧ j.e = (eField c).toNat ∧ (j.e = 0 → elenField c = 0#8) := by
  obtain ⟨mop, md, ma, mb, mz, me, mlen⟩ := row_mask_fields j
  obtain ⟨pop, pd, pa, pb, pz, pe, plen⟩ := row_pattern_fields j
  have hop : opcField c = opcField j.row.pattern ↔ j.op.code = (opcField c).toNat := by
    rw [← pop, BitVec.toNat_inj, eq_comm]
  have he : eField c = eField j.row.pattern ↔ j.e = (eField c).toNat := by
    rw [← pe, BitVec.toNat_inj, eq_comm]
  have hlen : elenField c &&& elenField j.row.mask = 0#8 ↔ (j.e = 0 → elenField c = 0#8) := by
    rw [mlen]
    split
    · next h => simp only [BitVec.and_allOnes, h, forall_const]
    · next h => simp only [BitVec.and_zero, h, false_implies]
  rw [and_eq_iff_fields, mop, md, ma, mb, mz, me, pd, pa, pb, pz, plen]
  simp only [BitVec.and_allOnes, and_fieldMask_eq_zero, hop, he, hlen]

/-- A word matches a row exactly when its opcode is the row's, it passes the checks of R94, and its E is the row's. -/
theorem and_mask_eq_pattern_iff (c : Word32) (j : Instr) : c &&& j.row.mask = j.row.pattern ↔
    j.op.code = (opcField c).toNat ∧ firstIllegal j.op c = none ∧ j.e = (eField c).toNat := by
  have hzero : j.e = (eField c).toNat → (j.e = 0 ↔ eField c = 0#1) := fun h => by
    rw [h]; exact BitVec.toNat_inj (y := 0#1)
  rw [and_mask_eq_pattern_iff_fields, firstIllegal_eq_none_iff]
  constructor
  · rintro ⟨hop, hd, ha, hb, hz, he, hlen⟩
    refine ⟨hop, ⟨hz, hd, ha, hb, fun hne => ?_, fun _ h => hlen ((hzero he).2 h)⟩, he⟩
    have h0 := Instr.e_eq_zero_of_op_ne hne
    exact ⟨(hzero he).1 h0, hlen h0⟩
  · rintro ⟨hop, ⟨hz, hd, ha, hb, hno, hlen⟩, he⟩
    refine ⟨hop, hd, ha, hb, hz, he, fun h0 => ?_⟩
    by_cases hb58 : j.op = .b58dec
    · exact hlen hb58 ((hzero he).1 h0)
    · exact (hno hb58).2

/-- The command of a word is of the row that has its operation and its E. -/
theorem row_buildInstr {j : Instr} {c : Word32} (he : j.e = (eField c).toNat) : (buildInstr j.op c).row = j.row := by
  cases j with
  | b58dec => rw [Instr.op, buildInstr_of_e_zero (BitVec.eq_of_toNat_eq he.symm)]; rfl
  | b58decLen => rw [Instr.op, buildInstr_of_e_one (BitVec.eq_of_toNat_eq he.symm)]; rfl
  | _ => rfl

/-- R101: a word matches a row exactly when it decodes to a command of that row. -/
theorem and_mask_eq_pattern_iff_decodeWord (c : Word32) (j : Instr) :
    c &&& j.row.mask = j.row.pattern ↔ ∃ i : Instr, decodeWord c = .ok i ∧ i.row = j.row := by
  constructor
  · intro h
    obtain ⟨hop, hc, he⟩ := (and_mask_eq_pattern_iff c j).1 h
    exact ⟨buildInstr j.op c, decodeWord_of_firstIllegal hop.symm hc, row_buildInstr he⟩
  · rintro ⟨i, hi, hrow⟩
    obtain ⟨hop, -, -, -, he, -⟩ := fields_of_decodeWord hi
    rw [← hrow]
    exact (and_mask_eq_pattern_iff c i).2 ⟨hop, firstIllegal_of_decodeWord hi, he⟩

theorem Op.code_ne (op : Op) : op.code ≠ 0x00 ∧ op.code ≠ 0xFF := by
  cases op <;> decide

end Sys2Proof
end

section
/-! SUPPORT. The statements about command words (spec/30_encoding.md). -/

namespace Sys2Proof.Machine

/-- Settles O1: every check of the decoder passes on the fields of the encoded word. -/
theorem decodingAnEncodedCommandGivesItBack : Obligations.DecodingAnEncodedCommandGivesItBack :=
  fun _ => decodeWord_encode

/-- Settles O2: a word that decodes is the sum of the fields its command holds. -/
theorem encodingADecodedWordGivesItBack : Obligations.EncodingADecodedWordGivesItBack :=
  fun _ _ h => ⟨wellFormed_of_decodeWord h, encode_of_decodeWord h⟩

/-- Settles O3, by the fields of the row's mask and of its match value. -/
theorem decoderAgreesWithMatchAndMask : Obligations.DecoderAgreesWithMatchAndMask :=
  and_mask_eq_pattern_iff_decodeWord

/-- Settles O4: the first failing check of the decoder is none exactly when every condition holds. -/
theorem decodingChecksTheFields : Obligations.DecodingChecksTheFields := by
  intro c
  refine ⟨?_, fun i => fields_of_decodeWord, fun s h => ⟨_, hostIssue_of_error h s, writesOnlyErr_raise .illegalCommand s⟩⟩
  simp only [← firstIllegal_eq_none_iff, decodeWord_eq_ok_iff]
  constructor
  · rintro ⟨_, op, hop, hc, -⟩
    exact ⟨op, hop, hc⟩
  · rintro ⟨op, hop, hc⟩
    exact ⟨_, op, hop, hc, rfl⟩

/-- Settles O7: a word that decodes matches the row of its command, and no opcode is all zeros or all ones. -/
theorem illegalWordRaisesIllegalCommand : Obligations.IllegalWordRaisesIllegalCommand := by
  constructor
  · intro s c rest hq hrow
    have hbad : ∀ i, decodeWord c ≠ .ok i := fun i hi =>
      hrow i ((and_mask_eq_pattern_iff_decodeWord c i).2 ⟨i, hi, rfl⟩)
    rw [step_of_hostQueue_cons hq]
    exact ⟨_, hostIssue_of_error hbad _, writesOnlyErr_raise .illegalCommand _⟩
  · simp only [List.forall_mem_cons]
    exact ⟨fun j h => j.op.code_ne.1 ((and_mask_eq_pattern_iff _ j).1 h).1,
      fun j h => j.op.code_ne.2 ((and_mask_eq_pattern_iff _ j).1 h).1, nofun⟩

/-- Settles O5, word by word. -/
theorem wordsOfTheSpecDecode : Obligations.WordsOfTheSpecDecode :=
  ⟨rfl, rfl, rfl, rfl, rfl, rfl, rfl, rfl, rfl, rfl, rfl⟩

end Sys2Proof.Machine
end

section
/-! SUPPORT. The share flow `CHKSHARE` (spec/30_encoding.md R100, spec/45_hashoracle.md R225): commands that succeed one after
another, and the two halves of the flow, the hash of the header and its comparison with the target. -/

namespace Sys2Proof.Machine

theorem KeepsRest.trans {s t u : State} (h : KeepsRest s t) (h' : KeepsRest t u) : KeepsRest s u where
  hversion := h'.hversion.trans h.hversion
  hprev := h'.hprev.trans h.hprev
  hmerkle := h'.hmerkle.trans h.hmerkle
  htime := h'.htime.trans h.htime
  hbits := h'.hbits.trans h.hbits
  hnonce := h'.hnonce.trans h.hnonce
  diff := h'.diff.trans h.diff
  hostQueue := h'.hostQueue.trans h.hostQueue
  lastRead := h'.lastRead.trans h.lastRead

/-! ## Commands that succeed one after another -/

/-- The commands, executed in order from the first state, all succeed, and end in the second. -/
inductive Succeed : List Instr → State → State → Prop
  | nil (s : State) : Succeed [] s s
  | cons {i : Instr} {is : List Instr} {s t u : State} :
      exec i s = .next t → t.regs.status.err = .ok → Succeed is t u → Succeed (i :: is) s u

theorem execAll_cons {i : Instr} {is : List Instr} {s t : State} (h : exec i s = .next t) :
    execAll (i :: is) s = execAll is t := by
  rw [execAll, h]

section
variable {is is' : List Instr} {s t u : State}

theorem Succeed.execAll_append (h : Succeed is s t) (is' : List Instr) : execAll (is ++ is') s = execAll is' t := by
  induction h with
  | nil => rfl
  | cons hi _ _ ih => exact (execAll_cons hi).trans ih

theorem Succeed.execAll_eq (h : Succeed is s t) : execAll is s = .next t := by
  simpa [execAll] using h.execAll_append []

theorem Succeed.append (h : Succeed is s t) (h' : Succeed is' t u) : Succeed (is ++ is') s u := by
  induction h with
  | nil => exact h'
  | cons hi herr _ ih => exact .cons hi herr (ih h')

/-- Of commands that succeed one after another, the first n succeed too, the last of them with `STATUS.ERR` 0. -/
theorem Succeed.execAll_take (h : Succeed is s t) {n : Nat} (hpos : 1 ≤ n) (hn : n ≤ is.length) :
    ∃ p, execAll (is.take n) s = .next p ∧ p.regs.status.err = .ok := by
  induction h generalizing n with
  | nil => exact absurd (hpos.trans hn) (by decide)
  | @cons i is s t u hi herr _ ih =>
    obtain ⟨m, rfl⟩ : ∃ m, n = m + 1 := ⟨n - 1, by omega⟩
    rw [List.take_succ_cons, execAll_cons hi]
    obtain rfl | hm := Nat.eq_zero_or_pos m
    · exact ⟨t, rfl, herr⟩
    · exact ih hm (Nat.le_of_succ_le_succ hn)

end

/-! ## The commands of the flow, each on the operands the one before leaves -/

theorem exec_hser (sd : SIdx) (s : State) : ∃ t, exec (.hser sd) s = .next t ∧ WritesS sd (serializeRegs s.regs) s t :=
  ⟨_, rfl, writesS_succeed sd _ s⟩

theorem exec_wswap_of_ok (sd sa : SIdx) {s : State} {b : Bytes} (h : chunkswap80 (s.readS sa) = .ok b) :
    ∃ t, exec (.wswap sd sa) s = .next t ∧ WritesS sd b s t := by
  obtain ⟨t, ht⟩ := completeS_next sd (chunkswap80 (s.readS sa)) s
  exact ⟨t, ht, writesS_of_completeS ht h⟩

theorem exec_powh_of_eq (sd sa : SIdx) {s : State} {w : Vector Byte 80} (h : s.readS sa = w.toList) :
    ∃ t, exec (.powh sd sa) s = .next t ∧ WritesS sd (Config.powHash w).toList s t :=
  execWith_powh_of_eq machineParams sd sa h

theorem exec_fromle_of_ok (ud : UIdx) (sa : SIdx) {s : State} {v : Uint256} (h : fromBytesLE (s.readS sa) = .ok v) :
    ∃ t, exec (.fromle ud sa) s = .next t ∧ WritesU ud v s t := by
  obtain ⟨t, ht⟩ := completeU_next ud (fromBytesLE (s.readS sa)) s
  exact ⟨t, ht, writesU_of_completeU ht h⟩

theorem exec_totgt_of_ne_zero (ud : UIdx) {s : State} (hd : s.regs.diff ≠ 0#64) :
    ∃ t v, exec (.totgt ud) s = .next t ∧ WritesU ud v s t ∧ v.toNat = Config.maxTarget.toNat / s.regs.diff.toNat :=
  execWith_totgt_of_ne_zero machineParams ud hd

theorem exec_totgt_of_zero (ud : UIdx) {s : State} (hd : s.regs.diff = 0#64) :
    ∃ t, exec (.totgt ud) s = .next t ∧ WritesOnlyErr .rangeError s t :=
  execWith_totgt_of_zero machineParams ud hd

theorem exec_meets (ua ub : UIdx) (s : State) :
    ∃ t, exec (.meets ua ub) s = .next t ∧ WritesFlag (meetsTarget (s.readU ua) (s.readU ub)) s t :=
  completeFlag_spec _ s

/-- A serialized header has the 80 bytes the chunk swap asks for, and so has its result. -/
theorem exists_chunkswap80_serializeRegs (g : Regs) :
    ∃ w : Vector Byte 80, chunkswap80 (serializeRegs g) = .ok w.toList := by
  have hlen : (serializeRegs g).length = 80 := length_serialize ..
  have hswap : chunkswap80 (serializeRegs g) = .ok (chunkswap4 (serializeRegs g)) := if_pos hlen
  exact ⟨⟨(chunkswap4 (serializeRegs g)).toArray, by simp [hlen]⟩, hswap⟩

theorem exists_fromBytesLE (b : Vector Byte 32) : ∃ v, fromBytesLE b.toList = .ok v :=
  ⟨_, if_pos b.length_toList⟩

/-! ## The two halves of the flow -/

/-- R100: four commands that bring the hash of the header to `u[a]`, and two that compare it with the target. -/
theorem chkshare_eq_append (sx sy : SIdx) (ua ub : UIdx) : chkshare sx sy ua ub =
    [.hser sx, .wswap sx sx, .powh sy sx, .fromle ua sy] ++ [.totgt ub, .meets ua ub] := rfl

/-- The first four commands always succeed, and leave the hash of the swapped header in `u[a]`. -/
theorem chkshare_hash (sx sy : SIdx) (ua : UIdx) (s : State) :
    ∃ (t : State) (w : Vector Byte 80) (hash : Uint256),
      Succeed [.hser sx, .wswap sx sx, .powh sy sx, .fromle ua sy] s t ∧
      chunkswap80 (serializeRegs s.regs) = .ok w.toList ∧ fromBytesLE (Config.powHash w).toList = .ok hash ∧
      (sx ≠ sy → t.readS sx = w.toList) ∧ t.readS sy = (Config.powHash w).toList ∧ t.readU ua = hash ∧ KeepsRest s t := by
  obtain ⟨w, hw⟩ := exists_chunkswap80_serializeRegs s.regs
  obtain ⟨hash, hhash⟩ := exists_fromBytesLE (Config.powHash w)
  obtain ⟨s₁, h₁, w₁⟩ := exec_hser sx s
  obtain ⟨s₂, h₂, w₂⟩ := exec_wswap_of_ok sx sx (w₁.dest ▸ hw)
  obtain ⟨s₃, h₃, w₃⟩ := exec_powh_of_eq sy sx w₂.dest
  obtain ⟨s₄, h₄, w₄⟩ := exec_fromle_of_ok ua sy (w₃.dest ▸ hhash)
  refine ⟨s₄, w, hash, .cons h₁ w₁.err (.cons h₂ w₂.err (.cons h₃ w₃.err (.cons h₄ w₄.err (.nil s₄)))), hw, hhash,
    fun hne => ?_, (w₄.allS sy).trans w₃.dest, w₄.dest,
    ((w₁.toKeepsRest.trans w₂.toKeepsRest).trans w₃.toKeepsRest).trans w₄.toKeepsRest⟩
  rw [w₄.allS, w₃.otherS sx hne, w₂.dest]

/-- With DIFF ≥ 1 the last two commands succeed, and `STATUS.FLAG` tells whether `u[a]` is at most the target. -/
theorem chkshare_compare {ua ub : UIdx} {s : State} (hne : ua ≠ ub) (hd : s.regs.diff ≠ 0#64) :
    ∃ t : State, Succeed [.totgt ub, .meets ua ub] s t ∧ (∀ j, t.readS j = s.readS j) ∧ t.readU ua = s.readU ua ∧
      (t.readU ub).toNat = Config.maxTarget.toNat / s.regs.diff.toNat ∧ KeepsRest s t ∧
      (t.regs.status.flag = true ↔ (s.readU ua).toNat ≤ Config.maxTarget.toNat / s.regs.diff.toNat) := by
  obtain ⟨s₁, target, h₁, w₁, htarget⟩ := exec_totgt_of_ne_zero ub hd
  obtain ⟨s₂, h₂, w₂⟩ := exec_meets ua ub s₁
  have hua : s₁.readU ua = s.readU ua := w₁.otherU ua hne
  refine ⟨s₂, .cons h₁ w₁.err (.cons h₂ w₂.err (.nil s₂)), fun j => (w₂.allS j).trans (w₁.allS j),
    (w₂.allU ua).trans hua, ?_, w₁.toKeepsRest.trans w₂.toKeepsRest, ?_⟩
  · rw [w₂.allU, w₁.dest, htarget]
  · rw [w₂.flag, hua, w₁.dest, meetsTarget, decide_eq_true_iff, htarget]

/-- Settles O57: the first half leaves the hash and DIFF, and the second half compares them. -/
theorem shareFlowAcceptsExactlyGoodShares : Obligations.ShareFlowAcceptsExactlyGoodShares := by
  intro sx sy ua ub s hne
  obtain ⟨s₄, w, hash, hfirst, hw, hhash, hsx, hsy, hua, hrest⟩ := chkshare_hash sx sy ua s
  rw [← hrest.diff, chkshare_eq_append]
  refine ⟨fun n hpos hn hor => ?_, fun hd => ?_, fun hd => ?_⟩
  · by_cases hd : s₄.regs.diff = 0#64
    · have hn4 : n ≤ 4 := hor.resolve_right (absurd hd)
      rw [List.take_append_of_le_length hn4]
      exact hfirst.execAll_take hpos hn4
    · obtain ⟨t, hlast, -⟩ := chkshare_compare hne hd
      exact (hfirst.append hlast).execAll_take hpos hn
  · obtain ⟨t, hlast, hS, hu, htarget, hrest', hflag⟩ := chkshare_compare hne hd
    rw [hua] at hu hflag
    exact ⟨t, w, hash, (hfirst.append hlast).execAll_eq, hw, hhash, fun h => (hS sx).trans (hsx h), (hS sy).trans hsy, hu,
      htarget, hrest.trans hrest', hflag⟩
  · obtain ⟨p, hp, wp⟩ := exec_totgt_of_zero ub hd
    exact ⟨p, (hfirst.execAll_append [.totgt ub]).trans (execAll_cons hp), wp.err⟩

end Sys2Proof.Machine
end

section
/-! SUPPORT. The number codecs (spec/40_uintcodec.md R120 to R123, R128 to R131): the value of each function, position by
position, and how each undoes or rearranges the other. -/

namespace Sys2Proof.Machine

/-! ## Little-endian strings as numbers (R120, R121, R128) -/

theorem fromBytesLE_of_length {b : Bytes} (h : b.length = 32) : fromBytesLE b = .ok (BitVec.ofNat 256 (leval b)) := if_pos h

theorem fromBytesLE_of_length_ne {b : Bytes} (h : b.length ≠ 32) : fromBytesLE b = .error .lengthError := if_neg h

/-- The number of a little-endian string is the sum of its bytes, each times its weight (R121). -/
theorem leval_eq_sum (b : Bytes) : leval b = ∑ i ∈ Finset.range b.length, (b.getD i 0#8).toNat * 256 ^ i := by
  induction b with
  | nil => rfl
  | cons x b ih =>
    rw [leval_cons, List.length_cons, Finset.sum_range_succ', ih, Finset.mul_sum, Nat.add_comm]
    simp only [List.getD_cons_succ, List.getD_cons_zero, pow_succ, pow_zero, Nat.mul_one, Nat.mul_left_comm 256,
      Nat.mul_comm 256]

/-- The number of 32 bytes fits in 256 bits, so no bit of it is lost. -/
theorem toNat_ofNat_leval {b : Bytes} (h : b.length = 32) : (BitVec.ofNat 256 (leval b)).toNat = leval b := by
  have hlt : leval b < 2 ^ 256 := (leval_lt b).trans_eq (by rw [h]; norm_num)
  rw [BitVec.toNat_ofNat, Nat.mod_eq_of_lt hlt]

theorem extractLsb'_ofNat_leval {b : Bytes} (h : b.length = 32) {i : Nat} (hi : i < 32) :
    b[i]? = some ((BitVec.ofNat 256 (leval b)).extractLsb' (8 * i) 8) := by
  have hib : i < b.length := h ▸ hi
  have hweight : (2 : Nat) ^ (8 * i) = 256 ^ i := pow_mul 2 8 i
  rw [List.getElem?_eq_getElem hib, Option.some_inj]
  apply BitVec.eq_of_toNat_eq
  rw [BitVec.extractLsb'_toNat, toNat_ofNat_leval h, Nat.shiftRight_eq_div_pow, hweight, leval_div_mod b i hib]

theorem toBytesLE_ofNat_leval {b : Bytes} (h : b.length = 32) : toBytesLE (BitVec.ofNat 256 (leval b)) = b :=
  ext_below (length_toBytesLE _) h fun _ hi => (getElem?_toBytesLE _ hi).trans (extractLsb'_ofNat_leval h hi).symm

/-- Bit n of a number is a bit of its byte n / 8, so its bytes determine it. -/
theorem toBytesLE_injective {u v : Uint256} (h : toBytesLE u = toBytesLE v) : u = v := by
  apply BitVec.eq_of_getLsbD_eq
  intro n hn
  have hbyte : u.extractLsb' (8 * (n / 8)) 8 = v.extractLsb' (8 * (n / 8)) 8 := by
    rw [← Option.some_inj, ← getElem?_toBytesLE u (by omega), ← getElem?_toBytesLE v (by omega), h]
  have hbit := congrArg (BitVec.getLsbD · (n % 8)) hbyte
  simpa [BitVec.getLsbD_extractLsb', Nat.mod_lt, Nat.div_add_mod] using hbit

theorem fromBytesLE_toBytesLE (u : Uint256) : fromBytesLE (toBytesLE u) = .ok u := by
  have hu := length_toBytesLE u
  rw [fromBytesLE_of_length hu, toBytesLE_injective (toBytesLE_ofNat_leval hu)]

/-- The bytes of a word of the number are bytes of the number (R120: byte 4k+j is byte j of word k). -/
theorem extractLsb'_word (u : Uint256) (k : Nat) {j : Nat} (hj : j < 4) :
    (u.extractLsb' (32 * k) 32).extractLsb' (8 * j) 8 = u.extractLsb' (8 * (4 * k + j)) 8 := by
  apply BitVec.eq_of_getLsbD_eq
  intro n hn
  have hword : 8 * j + n < 32 := by omega
  have hpos : 32 * k + (8 * j + n) = 8 * (4 * k + j) + n := by omega
  simp only [BitVec.getLsbD_extractLsb', hn, hword, hpos, decide_true, Bool.true_and]

/-! ## Word-wise big-endian bytes and the chunk swap (R122, R130) -/

theorem chunkswap4_chunkswap4 {b : Bytes} (hb : b.length % 4 = 0) : chunkswap4 (chunkswap4 b) = b := by
  have hswap : chunkswap4 (chunkswap4 b) = rearrange b.length chunkSource (chunkswap4 b) := by
    rw [chunkswap4, length_chunkswap4]
  exact hswap.trans (rearrange_rearrange _ _ _ b rfl (fun _ => chunkSource_lt hb) (fun _ => chunkSource_lt hb)
    fun i _ => chunkSource_chunkSource i)

theorem chunkswap4_toBytesLE (u : Uint256) : chunkswap4 (toBytesLE u) = toBytesBEWordwise u := by
  have hu := length_toBytesLE u
  refine ext_below (n := 32) (by simp) (by simp) fun p hp => ?_
  have hsrc : chunkSource p < 32 := chunkSource_lt rfl hp
  have hbits : 8 * chunkSource p = 32 * (p / 4) + 8 * (3 - p % 4) := by unfold chunkSource; omega
  rw [getElem?_chunkswap4 _ (by rw [hu]) (by rwa [hu]), getElem?_toBytesLE u hsrc, getElem?_toBytesBEWordwise u hp, hbits]

/-! ## Reversing the groups (R123, R129) -/

/-- The position the byte at position p of a group-reversed string comes from: groups of eight, the last one first. -/
def groupSource (p : Nat) : Nat := 8 * (7 - p / 8) + p % 8

theorem groupSource_lt {p : Nat} (h : p < 64) : groupSource p < 64 := by
  unfold groupSource; omega

theorem groupSource_groupSource {p : Nat} (h : p < 64) : groupSource (groupSource p) = p := by
  unfold groupSource; omega

theorem reverseHexWordGroups_of_length {h : Bytes} (hl : h.length = 64) :
    reverseHexWordGroups h = .ok (rearrange 64 groupSource h) := if_pos hl

theorem reverseHexWordGroups_of_length_ne {h : Bytes} (hl : h.length ≠ 64) :
    reverseHexWordGroups h = .error .formatError := if_neg hl

theorem rearrange_groupSource_involutive {h : Bytes} (hl : h.length = 64) :
    rearrange 64 groupSource (rearrange 64 groupSource h) = h :=
  rearrange_rearrange 64 _ _ h hl (fun _ => groupSource_lt) (fun _ => groupSource_lt) fun _ => groupSource_groupSource

/-! ## Hexadecimal text (R131): byte i of a string stands at positions 2i and 2i+1 of its text -/

@[simp] theorem hexText_cons (x : Byte) (b : Bytes) :
    hexText (x :: b) = hexChar (x.toNat / 16) :: hexChar (x.toNat % 16) :: hexText b := rfl

@[simp] theorem length_hexText (b : Bytes) : (hexText b).length = 2 * b.length := by
  induction b with
  | nil => rfl
  | cons x b ih => rw [hexText_cons, List.length_cons, List.length_cons, List.length_cons, ih]; rfl

theorem getElem?_hexText_even (b : Bytes) (i : Nat) :
    (hexText b)[2 * i]? = b[i]?.map fun x => hexChar (x.toNat / 16) := by
  induction b generalizing i with
  | nil => rfl
  | cons x b ih =>
    cases i with
    | zero => rfl
    | succ i => exact ih i

theorem getElem?_hexText_odd (b : Bytes) (i : Nat) :
    (hexText b)[2 * i + 1]? = b[i]?.map fun x => hexChar (x.toNat % 16) := by
  induction b generalizing i with
  | nil => rfl
  | cons x b ih =>
    cases i with
    | zero => rfl
    | succ i => exact ih i

@[simp] theorem length_hexBE (u : Uint256) : (hexBE u).length = 64 := by simp [hexBE]

/-- The position the byte at position p of the word-wise bytes has among the big-endian bytes: the last word first. -/
def wordSource (p : Nat) : Nat := 4 * (7 - p / 4) + p % 4

theorem wordSource_lt {p : Nat} (h : p < 32) : wordSource p < 32 := by
  unfold wordSource; omega

theorem groupSource_two_mul (p : Nat) : groupSource (2 * p) = 2 * wordSource p := by
  unfold groupSource wordSource; omega

theorem groupSource_two_mul_add_one (p : Nat) : groupSource (2 * p + 1) = 2 * wordSource p + 1 := by
  unfold groupSource wordSource; omega

theorem getElem?_be_wordSource (u : Uint256) {p : Nat} (h : p < 32) :
    (be 32 u.toNat)[wordSource p]? = (toBytesBEWordwise u)[p]? := by
  have hbits : 8 * (32 - 1 - wordSource p) = 32 * (p / 4) + 8 * (3 - p % 4) := by unfold wordSource; omega
  rw [getElem?_be _ _ (wordSource_lt h), getElem?_toBytesBEWordwise u h, ofNat_div_eq_extractLsb', hbits]

/-- A group of eight digits displays one word, so reversing the groups reverses the words. -/
theorem rearrange_groupSource_hexBE (u : Uint256) : rearrange 64 groupSource (hexBE u) = hexText (toBytesBEWordwise u) := by
  refine ext_below (n := 64) (by simp) (by simp) fun p hp => ?_
  rw [getElem?_rearrange _ _ hp (length_hexBE u ▸ groupSource_lt hp), hexBE]
  obtain ⟨i, rfl | rfl⟩ := Nat.even_or_odd' p
  · rw [groupSource_two_mul, getElem?_hexText_even, getElem?_hexText_even, getElem?_be_wordSource u (by omega)]
  · rw [groupSource_two_mul_add_one, getElem?_hexText_odd, getElem?_hexText_odd, getElem?_be_wordSource u (by omega)]

/-! ## The commands -/

/-- The word of a command with no operand out of range spells it (R93, R101). -/
theorem spells_of_wellFormed {i : Instr} (h : i.wellFormed = true) : Spells i i.op.code i.rd i.ra i.rb i.e i.elen :=
  ⟨rfl, decodeWord_encode h⟩

theorem exec_tole (sd : SIdx) (ua : UIdx) (s : State) :
    ∃ t, exec (.tole sd ua) s = .next t ∧ WritesS sd (toBytesLE (s.readU ua)) s t :=
  ⟨_, rfl, writesS_succeed sd _ s⟩

theorem exec_tobew (sd : SIdx) (ua : UIdx) (s : State) :
    ∃ t, exec (.tobew sd ua) s = .next t ∧ WritesS sd (toBytesBEWordwise (s.readU ua)) s t :=
  ⟨_, rfl, writesS_succeed sd _ s⟩

theorem exec_fromle_of_length_ne (ud : UIdx) (sa : SIdx) {s : State} (h : (s.readS sa).length ≠ 32) :
    ∃ t, exec (.fromle ud sa) s = .next t ∧ WritesOnlyErr .lengthError s t := by
  obtain ⟨t, ht⟩ := completeU_next ud (fromBytesLE (s.readS sa)) s
  exact ⟨t, ht, writesOnlyErr_of_completeU ht (fromBytesLE_of_length_ne h)⟩

theorem exec_rhwg_of_length (sd sa : SIdx) {s : State} (h : (s.readS sa).length = 64) :
    ∃ t, exec (.rhwg sd sa) s = .next t ∧ WritesS sd (rearrange 64 groupSource (s.readS sa)) s t := by
  obtain ⟨t, ht⟩ := completeS_next sd (reverseHexWordGroups (s.readS sa)) s
  exact ⟨t, ht, writesS_of_completeS ht (reverseHexWordGroups_of_length h)⟩

theorem exec_rhwg_of_length_ne (sd sa : SIdx) {s : State} (h : (s.readS sa).length ≠ 64) :
    ∃ t, exec (.rhwg sd sa) s = .next t ∧ WritesOnlyErr .formatError s t := by
  obtain ⟨t, ht⟩ := completeS_next sd (reverseHexWordGroups (s.readS sa)) s
  exact ⟨t, ht, writesOnlyErr_of_completeS ht (reverseHexWordGroups_of_length_ne h)⟩

end Sys2Proof.Machine
end

section
/-! SUPPORT. The statements about the number codecs (spec/40_uintcodec.md). -/

namespace Sys2Proof.Machine

/-- Settles O28: the number of the bytes is their weighted sum, and fits in the register. -/
theorem fromleWritesTheLittleEndianSum : Obligations.FromleWritesTheLittleEndianSum := by
  intro ud sa s
  refine ⟨spells_of_wellFormed (i := .fromle ud sa) rfl, fun h => ?_, exec_fromle_of_length_ne ud sa⟩
  obtain ⟨t, ht, w⟩ := exec_fromle_of_ok ud sa (fromBytesLE_of_length h)
  refine ⟨t, _, ht, w, ?_, fun i hi => extractLsb'_ofNat_leval h hi⟩
  rw [toNat_ofNat_leval h, leval_eq_sum, h]

/-- Settles O31: the commands run the two functions one after the other. -/
theorem littleEndianRoundTrip : Obligations.LittleEndianRoundTrip := by
  refine ⟨fun b hb => ⟨_, fromBytesLE_of_length hb, toBytesLE_ofNat_leval hb⟩, fromBytesLE_toBytesLE,
    fun ux sy sz s h => ?_, fun sy ux uz s => ?_⟩
  · obtain ⟨s₁, h₁, w₁⟩ := exec_fromle_of_ok ux sy (fromBytesLE_of_length h)
    obtain ⟨s₂, h₂, w₂⟩ := exec_tole sz ux s₁
    refine ⟨s₂, (execAll_cons h₁).trans (execAll_cons h₂), ?_⟩
    rw [w₂.dest, w₁.dest, toBytesLE_ofNat_leval h]
  · obtain ⟨s₁, h₁, w₁⟩ := exec_tole sy ux s
    obtain ⟨s₂, h₂, w₂⟩ := exec_fromle_of_ok uz sy (w₁.dest ▸ fromBytesLE_toBytesLE (s.readU ux))
    exact ⟨s₂, (execAll_cons h₁).trans (execAll_cons h₂), w₂.dest⟩

/-- Settles O32: `k -> 7-k` is its own inverse. -/
theorem reverseHexWordGroupsIsAnInvolution : Obligations.ReverseHexWordGroupsIsAnInvolution := by
  intro h hl
  refine ⟨_, reverseHexWordGroups_of_length hl, ?_⟩
  rw [reverseHexWordGroups_of_length (length_rearrange ..), rearrange_groupSource_involutive hl]

/-- Settles O33: one direction byte by byte, and the other because the chunk swap undoes itself. -/
theorem serializationsDifferByTheChunkSwap : Obligations.SerializationsDifferByTheChunkSwap := by
  intro u
  refine ⟨(chunkswap4_toBytesLE u).symm, ?_⟩
  rw [← chunkswap4_toBytesLE, chunkswap4_chunkswap4 (by rw [length_toBytesLE])]

/-- Settles O34: the groups of the display are the words of the number. -/
theorem reversedDisplayedHashIsTheWordwiseBytes : Obligations.ReversedDisplayedHashIsTheWordwiseBytes := by
  intro u
  rw [reverseHexWordGroups_of_length (length_hexBE u), rearrange_groupSource_hexBE]

/-- Settles O27: byte i of the string, and byte j of word k as byte 4k+j of the number. -/
theorem toleWritesLittleEndianBytes : Obligations.ToleWritesLittleEndianBytes := by
  intro sd ua s
  obtain ⟨t, ht, w⟩ := exec_tole sd ua s
  refine ⟨spells_of_wellFormed (i := .tole sd ua) rfl, t, _, ht, w, length_toBytesLE _,
    fun i hi => getElem?_toBytesLE _ hi, fun k hk j hj => ?_⟩
  rw [extractLsb'_word _ k hj, getElem?_toBytesLE _ (by omega)]

/-- Settles O29, with p = 4k+j taken apart into its word and its place in the word. -/
theorem tobewWritesWordwiseBigEndianBytes : Obligations.TobewWritesWordwiseBigEndianBytes := by
  intro sd ua s
  obtain ⟨t, ht, w⟩ := exec_tobew sd ua s
  refine ⟨spells_of_wellFormed (i := .tobew sd ua) rfl, t, _, ht, w, length_toBytesBEWordwise _, fun k hk j hj => ?_⟩
  have hword : (4 * k + j) / 4 = k := by omega
  have hplace : (4 * k + j) % 4 = j := by omega
  rw [getElem?_toBytesBEWordwise _ (by omega), hword, hplace]

/-- Settles O30, with p = 8k+j taken apart into its group and its place in the group. -/
theorem rhwgReversesTheGroups : Obligations.RhwgReversesTheGroups := by
  intro sd sa s
  refine ⟨spells_of_wellFormed (i := .rhwg sd sa) rfl, fun h => ?_, exec_rhwg_of_length_ne sd sa⟩
  obtain ⟨t, ht, w⟩ := exec_rhwg_of_length sd sa h
  refine ⟨t, _, ht, w, length_rearrange .., fun k hk j hj => ?_⟩
  have hp : 8 * k + j < 64 := by omega
  have hsrc : groupSource (8 * k + j) = 8 * (7 - k) + j := by unfold groupSource; omega
  rw [getElem?_rearrange _ _ hp (h ▸ groupSource_lt hp), hsrc]

end Sys2Proof.Machine
end

section
/-! SUPPORT. The header and its chunk swap (spec/41_headerserializer.md R140, R142): slices of a string, the six fields at
their places, and what the chunk swap makes of each field. -/

namespace Sys2Proof.Machine

/-! ## Slices of a string -/

theorem getElem?_slice (b : Bytes) (i : Nat) {n j : Nat} (h : j < n) : (slice b i n)[j]? = b[i + j]? := by
  rw [slice, List.getElem?_take_of_lt h, List.getElem?_drop]

theorem slice_of_length {b : Bytes} {n : Nat} (h : b.length = n) : slice b 0 n = b :=
  List.take_of_length_le h.le

theorem slice_append_left {a : Bytes} {n : Nat} (h : a.length = n) (b : Bytes) : slice (a ++ b) 0 n = a :=
  List.take_left' h

theorem slice_append_right {a : Bytes} {m : Nat} (h : a.length = m) (b : Bytes) (i n : Nat) :
    slice (a ++ b) (m + i) n = slice b i n := by
  subst h
  rw [slice, List.drop_length_add_append, slice]

/-! ## The places of the header fields (R140) -/

/-- The string h holds, at the places of the table of R140, these six strings. -/
structure HasFields (h version prev merkle time bits nonce : Bytes) : Prop where
  version : slice h 0 4 = version
  prev : slice h 4 32 = prev
  merkle : slice h 36 32 = merkle
  time : slice h 68 4 = time
  bits : slice h 72 4 = bits
  nonce : slice h 76 4 = nonce

theorem hasFields_append {v p m t b n : Bytes} (hv : v.length = 4) (hp : p.length = 32) (hm : m.length = 32)
    (ht : t.length = 4) (hb : b.length = 4) (hn : n.length = 4) :
    HasFields (v ++ p ++ m ++ t ++ b ++ n) v p m t b n := by
  simp only [List.append_assoc]
  refine ⟨slice_append_left hv _, ?_, ?_, ?_, ?_, ?_⟩
  · rw [slice_append_right hv _ 0, slice_append_left hp]
  · rw [slice_append_right hv _ 32, slice_append_right hp _ 0, slice_append_left hm]
  · rw [slice_append_right hv _ 64, slice_append_right hp _ 32, slice_append_right hm _ 0, slice_append_left ht]
  · rw [slice_append_right hv _ 68, slice_append_right hp _ 36, slice_append_right hm _ 4, slice_append_right ht _ 0,
      slice_append_left hb]
  · rw [slice_append_right hv _ 72, slice_append_right hp _ 40, slice_append_right hm _ 8, slice_append_right ht _ 4,
      slice_append_right hb _ 0, slice_of_length hn]

theorem hasFields_serialize (version : BitVec 32) (prev : Vector Byte 32) (merkle : Uint256) (time : Vector Byte 4)
    (bits : BitVec 32) (nonce : Vector Byte 4) :
    HasFields (serialize version prev merkle time bits nonce) (be 4 version.toNat) prev.toList (toBytesBEWordwise merkle)
      time.toList (be 4 bits.toNat) nonce.toList :=
  hasFields_append (length_be ..) prev.length_toList (length_toBytesBEWordwise _) time.length_toList (length_be ..)
    nonce.length_toList

/-- Byte i of a 32-bit number written most significant byte first. -/
theorem getElem?_be_four (x : BitVec 32) {i : Nat} (h : i < 4) :
    (be 4 x.toNat)[i]? = some (x.extractLsb' (8 * (3 - i)) 8) := by
  rw [getElem?_be _ _ h, ofNat_div_eq_extractLsb']

/-- Byte j of word k, with its position 4k+j taken apart (R122). -/
theorem getElem?_toBytesBEWordwise_word (u : Uint256) {k j : Nat} (hk : k < 8) (hj : j < 4) :
    (toBytesBEWordwise u)[4 * k + j]? = some (u.extractLsb' (32 * k + 8 * (3 - j)) 8) := by
  have hword : (4 * k + j) / 4 = k := by omega
  have hplace : (4 * k + j) % 4 = j := by omega
  rw [getElem?_toBytesBEWordwise _ (by omega), hword, hplace]

/-! ## The chunk swap of the fields (R142, R145) -/

theorem chunkswap80_of_length {h : Bytes} (hl : h.length = 80) : chunkswap80 h = .ok (chunkswap4 h) := if_pos hl

theorem chunkswap80_of_length_ne {h : Bytes} (hl : h.length ≠ 80) : chunkswap80 h = .error .lengthError := if_neg hl

theorem length_of_chunkswap80 {h w : Bytes} (hw : chunkswap80 h = .ok w) : h.length = 80 := by
  by_contra hl
  rw [chunkswap80_of_length_ne hl] at hw
  cases hw

/-- R144: `j -> 3-j` is its own inverse. -/
theorem chunkswap80_chunkswap80 {h w : Bytes} (hw : chunkswap80 h = .ok w) : chunkswap80 w = .ok h := by
  have hl := length_of_chunkswap80 hw
  obtain rfl : chunkswap4 h = w := Except.ok.inj ((chunkswap80_of_length hl).symm.trans hw)
  rw [chunkswap80_of_length ((length_chunkswap4 h).trans hl), chunkswap4_chunkswap4 (by rw [hl])]

theorem getElem?_chunkswap4_chunk {b : Bytes} (hb : b.length % 4 = 0) {c j : Nat} (h : 4 * c + j < b.length) (hj : j < 4) :
    (chunkswap4 b)[4 * c + j]? = b[4 * c + (3 - j)]? := by
  have hsrc : chunkSource (4 * c + j) = 4 * c + (3 - j) := by unfold chunkSource; omega
  rw [getElem?_chunkswap4 b hb h, hsrc]

/-- The chunk swap works on each part of a string that is cut between two chunks. -/
theorem chunkswap4_append {a b : Bytes} (ha : a.length % 4 = 0) (hb : b.length % 4 = 0) :
    chunkswap4 (a ++ b) = chunkswap4 a ++ chunkswap4 b := by
  have hab : (a ++ b).length = a.length + b.length := List.length_append
  refine ext_below (n := a.length + b.length) (by simp) (by simp) fun i hi => ?_
  rw [getElem?_chunkswap4 _ (by omega) (by omega)]
  by_cases h : i < a.length
  · rw [List.getElem?_append_left (chunkSource_lt ha h), List.getElem?_append_left (by simpa using h),
      getElem?_chunkswap4 a ha h]
  · have hsrc : chunkSource i - a.length = chunkSource (i - a.length) := by unfold chunkSource; omega
    have hle : a.length ≤ chunkSource i := by unfold chunkSource; omega
    rw [List.getElem?_append_right hle, List.getElem?_append_right (by simpa using h), length_chunkswap4,
      getElem?_chunkswap4 b hb (by omega), hsrc]

/-- The chunk swap of a single chunk reverses it. -/
theorem chunkswap4_of_length_four {b : Bytes} (hb : b.length = 4) : chunkswap4 b = b.reverse := by
  refine ext_below (n := 4) (by simp [hb]) (by simp [hb]) fun i hi => ?_
  have hsrc : chunkSource i = b.length - 1 - i := by unfold chunkSource; omega
  rw [getElem?_chunkswap4 b (by omega) (by omega), List.getElem?_reverse (by omega), hsrc]

theorem reverse_be (n v : Nat) : (be n v).reverse = le n v := by
  refine ext_below (n := n) (by simp) (by simp) fun i hi => ?_
  have hpos : n - 1 - (n - 1 - i) = i := by omega
  rw [List.getElem?_reverse (by simpa using hi), length_be, getElem?_be n v (by omega), getElem?_le n v hi, hpos]

theorem chunkswap4_be_four (v : Nat) : chunkswap4 (be 4 v) = le 4 v := by
  rw [chunkswap4_of_length_four (length_be 4 v), reverse_be]

/-- The chunk swap keeps the six fields at their places and swaps each of them by itself. -/
theorem hasFields_chunkswap4_append {v p m t b n : Bytes} (hv : v.length = 4) (hp : p.length = 32) (hm : m.length = 32)
    (ht : t.length = 4) (hb : b.length = 4) (hn : n.length = 4) :
    HasFields (chunkswap4 (v ++ p ++ m ++ t ++ b ++ n)) (chunkswap4 v) (chunkswap4 p) (chunkswap4 m) (chunkswap4 t)
      (chunkswap4 b) (chunkswap4 n) := by
  have hswap : chunkswap4 (v ++ p ++ m ++ t ++ b ++ n) = chunkswap4 v ++ chunkswap4 p ++ chunkswap4 m ++ chunkswap4 t ++
      chunkswap4 b ++ chunkswap4 n := by
    rw [chunkswap4_append, chunkswap4_append, chunkswap4_append, chunkswap4_append, chunkswap4_append] <;>
      simp only [List.length_append, hv, hp, hm, ht, hb, hn]
  rw [hswap]
  apply hasFields_append <;> rwa [length_chunkswap4]

theorem hasFields_chunkswap4_serialize (version : BitVec 32) (prev : Vector Byte 32) (merkle : Uint256)
    (time : Vector Byte 4) (bits : BitVec 32) (nonce : Vector Byte 4) :
    HasFields (chunkswap4 (serialize version prev merkle time bits nonce)) (le 4 version.toNat) (chunkswap4 prev.toList)
      (toBytesLE merkle) time.toList.reverse (le 4 bits.toNat) nonce.toList.reverse := by
  rw [← chunkswap4_be_four, ← chunkswap4_be_four, (serializationsDifferByTheChunkSwap merkle).2,
    ← chunkswap4_of_length_four time.length_toList, ← chunkswap4_of_length_four nonce.length_toList]
  exact hasFields_chunkswap4_append (length_be ..) prev.length_toList (length_toBytesBEWordwise _) time.length_toList
    (length_be ..) nonce.length_toList

/-! ## The commands -/

theorem exec_wswap_of_length_ne (sd sa : SIdx) {s : State} (h : (s.readS sa).length ≠ 80) :
    ∃ t, exec (.wswap sd sa) s = .next t ∧ WritesOnlyErr .lengthError s t := by
  obtain ⟨t, ht⟩ := completeS_next sd (chunkswap80 (s.readS sa)) s
  exact ⟨t, ht, writesOnlyErr_of_completeS ht (chunkswap80_of_length_ne h)⟩

theorem writesS_of_exec_hser {sd : SIdx} {s t : State} (ht : exec (.hser sd) s = .next t) :
    WritesS sd (serializeRegs s.regs) s t :=
  writesS_of_completeS (r := .ok (serializeRegs s.regs)) ht rfl

/-- A `WSWAP` that succeeded has written the chunk swap of its source. -/
theorem chunkswap80_of_exec_wswap {sd sa : SIdx} {s t : State} (ht : exec (.wswap sd sa) s = .next t)
    (herr : t.regs.status.err = .ok) : chunkswap80 (s.readS sa) = .ok (t.readS sd) := by
  obtain ⟨w, hw, wr⟩ | ⟨e, -, wr⟩ := completeS_inv (r := chunkswap80 (s.readS sa)) ht
  · rw [hw, wr.dest]
  · exact absurd (wr.err.symm.trans herr) e.code_ne_ok

end Sys2Proof.Machine
end

section
/-! SUPPORT. The statements about the header serializer (spec/41_headerserializer.md). -/

namespace Sys2Proof.Machine

/-- Settles O35: each byte is read in the slice of its field. -/
theorem hserWritesTheHeader : Obligations.HserWritesTheHeader := by
  intro sd s
  obtain ⟨t, ht, w⟩ := exec_hser sd s
  have f : HasFields (serializeRegs s.regs) _ _ _ _ _ _ := hasFields_serialize ..
  refine ⟨spells_of_wellFormed (i := .hser sd) rfl, t, _, ht, w, length_serialize .., fun i hi => ?_, fun i hi => ?_,
    fun k hk j hj => ?_, fun i hi => ?_, fun i hi => ?_, fun i hi => ?_⟩
  · rw [← getElem?_be_four _ hi, ← f.version, getElem?_slice _ 0 hi, Nat.zero_add]
  · rw [← f.prev, getElem?_slice _ 4 hi]
  · rw [← getElem?_toBytesBEWordwise_word _ hk hj, ← f.merkle, getElem?_slice _ 36 (by omega), Nat.add_assoc]
  · rw [← f.time, getElem?_slice _ 68 hi]
  · rw [← getElem?_be_four _ hi, ← f.bits, getElem?_slice _ 72 hi]
  · rw [← f.nonce, getElem?_slice _ 76 hi]

/-- Settles O36: byte 4c+j of the swapped string is read at its source. -/
theorem wswapReversesEachChunk : Obligations.WswapReversesEachChunk := by
  intro sd sa s
  refine ⟨spells_of_wellFormed (i := .wswap sd sa) rfl, fun h => ?_, exec_wswap_of_length_ne sd sa⟩
  obtain ⟨t, ht, w⟩ := exec_wswap_of_ok sd sa (chunkswap80_of_length h)
  exact ⟨t, _, ht, w, (length_chunkswap4 _).trans h,
    fun c hc j hj => getElem?_chunkswap4_chunk (by rw [h]) (by omega) hj⟩

/-- Settles O37: the commands write what the two functions give, and a chunk swap that succeeded is undone by another. -/
theorem headerLengthAndChunkSwapInvolution : Obligations.HeaderLengthAndChunkSwapInvolution := by
  refine ⟨length_serialize, fun sd s t ht => ?_, fun h hl => ?_, fun sd sa s t ht herr => ?_⟩
  · rw [(writesS_of_exec_hser ht).dest]
    exact length_serialize ..
  · have hw := chunkswap80_of_length hl
    exact ⟨_, hw, length_chunkswap80 hw, chunkswap80_chunkswap80 hw⟩
  · have hw := chunkswap80_of_exec_wswap ht herr
    obtain ⟨t', ht', w'⟩ := exec_wswap_of_ok sd sd (chunkswap80_chunkswap80 hw)
    exact ⟨length_chunkswap80 hw, t', ht', w'.dest⟩

/-- Settles O38: the six fields stay at their places, each swapped by itself. -/
theorem swappedHeaderIsLittleEndian : Obligations.SwappedHeaderIsLittleEndian := by
  intro version prev merkle time bits nonce
  have f := hasFields_chunkswap4_serialize version prev merkle time bits nonce
  have hprev : prev.toList.length = 32 := prev.length_toList
  refine ⟨_, chunkswap80_of_length (length_serialize ..), f.version, fun c hc j hj => ?_, f.merkle, f.time, f.bits, f.nonce⟩
  rw [Nat.add_assoc, ← getElem?_slice _ 4 (n := 32) (by omega), f.prev,
    getElem?_chunkswap4_chunk (by rw [hprev]) (by omega) hj]

end Sys2Proof.Machine
end

section
/-! SUPPORT. The statements about difficulties and targets (spec/42_difficultytarget.md). -/

namespace Sys2Proof.Machine

/-! ## Targets of different difficulties (R161, R166) -/

theorem toTarget_one (m : Uint256) : toTarget m 1 = .ok m := by
  rw [toTarget_of_pos m Nat.one_pos, Nat.div_one, BitVec.ofNat_toNat, BitVec.setWidth_eq]

/-- The target of the larger divisor is at least `d1`, so the step from `d1` to `d2` takes at least one from the quotient. -/
theorem div_lt_div_of_mul_le {m d1 d2 : Nat} (hpos : 0 < d1) (hlt : d1 < d2) (hm : d1 * d2 ≤ m) : m / d2 < m / d1 := by
  have hq : d1 ≤ m / d2 := (Nat.le_div_iff_mul_le (hpos.trans hlt)).2 hm
  apply (Nat.le_div_iff_mul_le hpos).2
  calc (m / d2 + 1) * d1 = m / d2 * d1 + d1 := Nat.succ_mul ..
    _ ≤ m / d2 * d1 + m / d2 := Nat.add_le_add_left hq _
    _ = m / d2 * (d1 + 1) := (Nat.mul_succ ..).symm
    _ ≤ m / d2 * d2 := Nat.mul_le_mul_left _ hlt
    _ ≤ m := Nat.div_mul_le_self m d2

/-- Settles O41: both targets are quotients of one number, and two 64-bit difficulties multiply to less than 2^128. -/
theorem targetFallsAsDifficultyRises : Obligations.TargetFallsAsDifficultyRises := by
  refine fun m => ⟨toTarget_one m, toTarget_of_pos m Nat.two_pos, fun d1 d2 hpos hlt hd2 =>
    ⟨_, _, toTarget_of_pos m hpos, toTarget_of_pos m (hpos.trans hlt.le), ?_, fun hm => ?_⟩⟩ <;>
    rw [toNat_ofNat_target, toNat_ofNat_target]
  · exact Nat.div_le_div_left hlt.le hpos
  · have hprod : d1 * d2 ≤ 2 ^ 64 * 2 ^ 64 := Nat.mul_le_mul (hlt.trans hd2).le hd2.le
    exact div_lt_div_of_mul_le hpos hlt (hprod.trans hm)

/-! ## The commands and the parameter (R160, R162 to R164) -/

/-- Settles O39: the value written is the quotient, which the two inequalities describe. -/
theorem totgtWritesTheFloorQuotient : Obligations.TotgtWritesTheFloorQuotient := by
  intro ud s
  refine ⟨spells_of_wellFormed (i := .totgt ud) rfl, fun hd => ?_, exec_totgt_of_zero ud⟩
  obtain ⟨t, v, ht, w, hv⟩ := exec_totgt_of_ne_zero ud hd
  have hpos : 0 < s.regs.diff.toNat := Nat.pos_of_ne_zero fun h => hd (BitVec.eq_of_toNat_eq h)
  refine ⟨t, v, ht, w, ?_, ?_⟩ <;> rw [hv]
  · exact Nat.div_mul_le_self ..
  · exact (Nat.div_lt_iff_lt_mul hpos).1 (Nat.lt_succ_self _)

/-- Settles O40: the flag written is the truth value of the comparison of R163. -/
theorem meetsSetsFlagToTheComparison : Obligations.MeetsSetsFlagToTheComparison := by
  intro ua ub s
  obtain ⟨t, ht, w⟩ := exec_meets ua ub s
  exact ⟨spells_of_wellFormed (i := .meets ua ub) rfl, t, _, ht, w, decide_eq_true_iff⟩

/-- Settles O42: 0xFFFF shifted by 224 bits, as a word and as a number. -/
theorem maxTargetHasItsDefaultValue : Obligations.MaxTargetHasItsDefaultValue := by
  constructor <;> decide

end Sys2Proof.Machine
end

section
/-! SUPPORT. Base58 text (spec/43_base58check.md R180 to R183, R192): digits and characters, a string with its leading run of
one byte set apart, the text of a number, and that decoding to a string is being its `encode`. -/

namespace Sys2Proof.Machine

/-! ## Digits and characters (R180, R181) -/

theorem digitVal_digitChar : ∀ v < 58, digitVal (digitChar v) = some v := by decide

/-- A byte with a digit value is the character at that position of the alphabet. -/
theorem digitVal_inv : ∀ c, ∀ v ∈ digitVal c, v < alphabet.length ∧ digitChar v = c := by decide

theorem isSome_digitVal_iff (c : Byte) : (digitVal c).isSome = true ↔ c ∈ alphabet := by
  constructor
  · intro h
    obtain ⟨v, hv⟩ := Option.isSome_iff_exists.1 h
    obtain ⟨hlt, rfl⟩ := digitVal_inv c v hv
    rw [digitChar, List.getD_eq_getElem _ _ hlt]
    exact List.getElem_mem hlt
  · intro h
    obtain ⟨v, hlt, rfl⟩ := List.getElem_of_mem h
    rw [← List.getD_eq_getElem _ 0#8 hlt]
    exact Option.isSome_of_mem (digitVal_digitChar v hlt)

/-- The only digit whose value is 0 is '1'. -/
theorem digitChar_eq_one {v : Nat} (hv : v < 58) (h : digitChar v = 0x31#8) : v = 0 := by
  have hval := digitVal_digitChar v hv
  rw [h] at hval
  exact (Option.some.inj hval).symm

theorem digitChar_getD_digitVal {c : Byte} (h : (digitVal c).isSome = true) : digitChar ((digitVal c).getD 0) = c := by
  obtain ⟨v, hv⟩ := Option.isSome_iff_exists.1 h
  rw [hv]
  exact (digitVal_inv c v hv).2

/-! ## The leading run of one byte, set apart -/

section
variable {x : Byte} {z : Nat} {m t r : Bytes}

theorem takeWhile_rep_append (h : m.head? ≠ some x) : (rep x z ++ m).takeWhile (· == x) = rep x z := by
  have hm : m.takeWhile (· == x) = [] := by
    cases m with
    | nil => rfl
    | cons y m => simpa using h
  rw [rep, List.takeWhile_append_of_pos (by simp), hm, List.append_nil]

theorem exists_eq_rep_append (x : Byte) (b : Bytes) : ∃ z m, b = rep x z ++ m ∧ m.head? ≠ some x := by
  induction b with
  | nil => exact ⟨0, [], rfl, nofun⟩
  | cons y b ih =>
    by_cases hy : y = x
    · obtain ⟨z, m, rfl, hm⟩ := ih
      exact ⟨z + 1, m, by rw [hy]; rfl, hm⟩
    · exact ⟨0, y :: b, rfl, by simpa using hy⟩

theorem allDigits_append {a b : Bytes} : AllDigits (a ++ b) ↔ AllDigits a ∧ AllDigits b := List.forall_mem_append

theorem allDigits_rep_one (z : Nat) : AllDigits (rep 0x31#8 z) := by
  intro c hc
  rw [List.eq_of_mem_replicate hc]
  rfl

theorem hasLeadingOnes_rep_append (ht : t.head? ≠ some 0x31#8) : HasLeadingOnes (rep 0x31#8 z ++ t) z := by
  have h := hasLeadingOnes_leadingOnes (rep 0x31#8 z ++ t)
  rwa [leadingOnes, takeWhile_rep_append ht, length_rep] at h

theorem textNumber_rep_append (z : Nat) (t : Bytes) : textNumber (rep 0x31#8 z ++ t) = textNumber t := by
  induction z with
  | zero => rfl
  | succ z ih => exact (textNumber_cons_one _).trans ih

theorem decodesTo_rep_append (ht : t.head? ≠ some 0x31#8) :
    DecodesTo (rep 0x31#8 z ++ t) r ↔ AllDigits t ∧ r = rep 0#8 z ++ minbytes (textNumber t) := by
  constructor
  · rintro ⟨hd, z', m, hz, hm, rfl⟩
    rw [textNumber_rep_append] at hm
    rw [hasLeadingOnes_unique hz (hasLeadingOnes_rep_append ht), isMinBytes_unique hm]
    exact ⟨(allDigits_append.1 hd).2, rfl⟩
  · rintro ⟨hd, rfl⟩
    refine ⟨allDigits_append.2 ⟨allDigits_rep_one z, hd⟩, z, _, hasLeadingOnes_rep_append ht, ?_, rfl⟩
    rw [textNumber_rep_append]
    exact isMinBytes_minbytes _

end

/-! ## The text of a number (R192) -/

/-- The base-58 digits of a number as characters, most significant first: what `encode58` writes after the leading '1's. -/
def base58Text (n : Nat) : Bytes := (Nat.digits 58 n).reverse.map digitChar

theorem allDigits_base58Text (n : Nat) : AllDigits (base58Text n) := by
  intro c hc
  obtain ⟨v, hv, rfl⟩ := List.mem_map.1 hc
  exact Option.isSome_of_mem (digitVal_digitChar v (Nat.digits_lt_base (by decide) (List.mem_reverse.1 hv)))

theorem head?_base58Text (n : Nat) : (base58Text n).head? ≠ some 0x31#8 := by
  rw [base58Text, List.head?_map, List.head?_reverse]
  intro h
  obtain ⟨v, hlast, hone⟩ := Option.map_eq_some_iff.1 h
  obtain ⟨hne, rfl⟩ := List.mem_getLast?_eq_getLast hlast
  have hlt : (Nat.digits 58 n).getLast hne < 58 := Nat.digits_lt_base (by decide) (List.getLast_mem hne)
  exact Nat.getLast_digit_ne_zero 58 (Nat.digits_ne_nil_iff_ne_zero.1 hne) (digitChar_eq_one hlt hone)

theorem textNumber_base58Text (n : Nat) : textNumber (base58Text n) = n := by
  have hvals : (base58Text n).map (fun c => (digitVal c).getD 0) = (Nat.digits 58 n).reverse := by
    rw [base58Text, List.map_map, List.map_congr_left (g := id), List.map_id]
    intro v hv
    simp [digitVal_digitChar v (Nat.digits_lt_base (by decide) (List.mem_reverse.1 hv))]
  rw [← base58Number_map_digitVal, hvals, base58Number_eq_ofDigits, List.reverse_reverse, Nat.ofDigits_digits]

theorem digits_textNumber {t : Bytes} (hd : AllDigits t) (ht : t.head? ≠ some 0x31#8) :
    Nat.digits 58 (textNumber t) = (t.map fun c => (digitVal c).getD 0).reverse := by
  rw [← base58Number_map_digitVal, base58Number_eq_ofDigits]
  apply Nat.digits_ofDigits 58 (by decide)
  · simpa using fun c _ => digitVal_getD_lt c
  · cases t with
    | nil => exact fun h => absurd rfl h
    | cons c t =>
      have hc : digitChar ((digitVal c).getD 0) = c := digitChar_getD_digitVal (hd c List.mem_cons_self)
      have hnonzero : (digitVal c).getD 0 ≠ 0 := fun hzero => by
        rw [hzero] at hc
        exact ht (congrArg some hc.symm)
      simpa using hnonzero

theorem base58Text_textNumber {t : Bytes} (hd : AllDigits t) (ht : t.head? ≠ some 0x31#8) :
    base58Text (textNumber t) = t := by
  rw [base58Text, digits_textNumber hd ht, List.reverse_reverse, List.map_map, List.map_congr_left (g := id), List.map_id]
  exact fun c hc => digitChar_getD_digitVal (hd c hc)

/-! ## Decoding and `encode` (R192) -/

theorem encode58_rep_append {z : Nat} {m : Bytes} (hm : m.head? ≠ some 0#8) :
    encode58 (rep 0#8 z ++ m) = rep 0x31#8 z ++ base58Text (beval m) := by
  rw [encode58, takeWhile_rep_append hm, length_rep, beval_append, beval_replicate_zero, Nat.zero_mul,
    Nat.zero_add, base58Text]

/-- R192: the text of a byte string is the only one that decodes to it. -/
theorem decodesTo_iff_eq_encode58 {text r : Bytes} : DecodesTo text r ↔ text = encode58 r := by
  constructor
  · intro h
    obtain ⟨z, t, rfl, ht⟩ := exists_eq_rep_append 0x31#8 text
    obtain ⟨hd, rfl⟩ := (decodesTo_rep_append ht).1 h
    rw [encode58_rep_append (isMinBytes_minbytes _).2, beval_minbytes, base58Text_textNumber hd ht]
  · rintro rfl
    obtain ⟨z, m, rfl, hm⟩ := exists_eq_rep_append 0#8 r
    rw [encode58_rep_append hm, decodesTo_rep_append (head?_base58Text _), textNumber_base58Text,
      ← isMinBytes_unique ⟨rfl, hm⟩]
    exact ⟨allDigits_base58Text _, rfl⟩

theorem decode_eq_ok_iff {text r : Bytes} : decode text none = .ok r ↔ DecodesTo text r :=
  ⟨decodesTo_of_decode_ok, fun h => decode_of_decodesTo h none⟩

theorem decodesTo_encode58 (b : Bytes) : DecodesTo (encode58 b) b := decodesTo_iff_eq_encode58.2 rfl

end Sys2Proof.Machine
end

section
/-! SUPPORT. 25 bytes of an address after one of them is changed (spec/43_base58check.md R188, R190), and how the commands
that decode complete (R184). -/

namespace Sys2Proof.Machine

/-! ## The parts of an address -/

theorem passesCheck_append {sha : HashFn} {a c : Bytes} (ha : a.length = 21) (hc : c.length = 4) :
    PassesCheck sha (a ++ c) ↔ c = first 4 (doubleHash sha a) := by
  have hsum : slice (a ++ c) 21 4 = c := (slice_append_right ha c 0 4).trans (slice_of_length hc)
  have hbody : first 21 (a ++ c) = a := slice_append_left ha c
  have hlen : (a ++ c).length = 25 := by simp [ha, hc]
  rw [PassesCheck, hsum, hbody, and_iff_right hlen]

section
variable {sha : HashFn} {r : Bytes} {k : Nat} {x : Byte}

/-- A changed byte of version or payload leaves the checksum as it was. -/
theorem not_passesCheck_set_of_lt (hk : k < 21)
    (hnew : first 4 (doubleHash sha (first 21 (r.set k x))) ≠ slice r 21 4) : ¬ PassesCheck sha (r.set k x) := by
  rintro ⟨-, hsum⟩
  have hkeep : slice (r.set k x) 21 4 = slice r 21 4 := by rw [slice, List.drop_set_of_lt hk, slice]
  exact hnew (hsum.symm.trans hkeep)

/-- A changed byte of the checksum leaves version and payload, and so the right checksum, as they were. -/
theorem not_passesCheck_set_of_le (hp : PassesCheck sha r) (hk : 21 ≤ k) (hlt : k < 25) (hx : r[k]? ≠ some x) :
    ¬ PassesCheck sha (r.set k x) := by
  obtain ⟨hlen, hsum⟩ := hp
  rintro ⟨-, hsum'⟩
  have hkeep : first 21 (r.set k x) = first 21 r := List.take_set_of_le hk
  have hsame : slice (r.set k x) 21 4 = slice r 21 4 := by rw [hsum', hsum, hkeep]
  have hbyte := congrArg (·[k - 21]?) hsame
  simp only [getElem?_slice _ _ (show k - 21 < 4 by omega), Nat.add_sub_cancel' hk] at hbyte
  rw [List.getElem?_set_self (by omega)] at hbyte
  exact hx hbyte.symm

end

/-! ## The commands -/

section
variable (sd sa : SIdx) {s : State} {r : Bytes}

theorem exec_b58dec_of_decodesTo (hr : DecodesTo (s.readS sa) r) :
    ∃ t, exec (.b58dec sd sa) s = .next t ∧ WritesS sd r s t := by
  obtain ⟨t, ht⟩ := completeS_next sd (decode (s.readS sa) none) s
  exact ⟨t, ht, writesS_of_completeS ht (decode_of_decodesTo hr none)⟩

theorem exec_b58dec_of_badDigit (hd : ¬ AllDigits (s.readS sa)) :
    ∃ t, exec (.b58dec sd sa) s = .next t ∧ WritesOnlyErr .badDigit s t := by
  obtain ⟨t, ht⟩ := completeS_next sd (decode (s.readS sa) none) s
  exact ⟨t, ht, writesOnlyErr_of_completeS ht (decode_of_badDigit hd none)⟩

theorem exec_b58decLen_of_decodesTo (hr : DecodesTo (s.readS sa) r) (n : Nat) :
    ∃ t, exec (.b58decLen sd sa n) s = .next t ∧
      (r.length = n → WritesS sd r s t) ∧ (r.length ≠ n → WritesOnlyErr .lengthMismatchError s t) := by
  obtain ⟨t, ht⟩ := completeS_next sd (decode (s.readS sa) (some n)) s
  have hdec := decode_of_decodesTo hr (some n)
  exact ⟨t, ht, fun hl => writesS_of_completeS ht (hdec.trans (if_neg (not_not.2 hl))),
    fun hl => writesOnlyErr_of_completeS ht (hdec.trans (if_pos hl))⟩

theorem exec_b58decLen_of_badDigit (hd : ¬ AllDigits (s.readS sa)) (n : Nat) :
    ∃ t, exec (.b58decLen sd sa n) s = .next t ∧ WritesOnlyErr .badDigit s t := by
  obtain ⟨t, ht⟩ := completeS_next sd (decode (s.readS sa) (some n)) s
  exact ⟨t, ht, writesOnlyErr_of_completeS ht (decode_of_badDigit hd (some n))⟩

end

end Sys2Proof.Machine
end

section
/-! SUPPORT. The statements about Base58Check (spec/43_base58check.md). -/

namespace Sys2Proof.Machine

/-- Settles O44: no number of bytes below `byteCount n` can spell `n`. -/
theorem minbytesIsTheShortestSpelling : Obligations.MinbytesIsTheShortestSpelling := by
  refine ⟨fun n => ⟨beval_minbytes n, (isMinBytes_minbytes n).2, fun b hb => ?_⟩,
    fun n _ => ⟨byteCount n, rfl, lt_pow_byteCount n, fun _ => byteCount_le⟩, rfl⟩
  rw [length_minbytes, ← hb]
  exact byteCount_le (beval_lt b)

/-- Settles O45: a text of digits decodes to some bytes, which both forms write or measure; any other text has no digit values. -/
theorem b58decWritesTheDecodedBytes : Obligations.B58decWritesTheDecodedBytes := by
  intro sd sa s
  refine ⟨spells_of_wellFormed (i := .b58dec sd sa) rfl,
    fun n hn => spells_of_wellFormed (i := .b58decLen sd sa n) (decide_eq_true hn), fun hd => ?_, fun hd => ?_⟩
  · obtain ⟨r, hr⟩ := exists_decodesTo _ hd
    exact ⟨r, hr, exec_b58dec_of_decodesTo sd sa hr, fun n _ => exec_b58decLen_of_decodesTo sd sa hr n⟩
  · exact ⟨exec_b58dec_of_badDigit sd sa hd, fun n _ => exec_b58decLen_of_badDigit sd sa hd n⟩

/-- Settles O46: what a text decodes to is the value of a function. -/
theorem textDecodesToOneByteString : Obligations.TextDecodesToOneByteString := fun _ _ _ h h' =>
  Except.ok.inj ((decode_eq_ok_iff.2 h).symm.trans (decode_eq_ok_iff.2 h'))

/-- Settles O47: the command of the core at the machine's parameters. -/
theorem b58addrVerifiesAndSplitsTheAddress : Obligations.B58addrVerifiesAndSplitsTheAddress := fun sd sa _ =>
  ⟨spells_of_wellFormed (i := .b58addr sd sa) rfl, fun _ => execWith_b58addr_of_decodesTo machineParams sd sa,
    execWith_b58addr_of_badDigit machineParams sd sa⟩

/-- Settles O49: 58 is less than 256, and a leading '1' is one byte. -/
theorem decodedTextIsNoLongerThanTheText : Obligations.DecodedTextIsNoLongerThanTheText := fun _ _ h =>
  length_le_of_decodesTo (decodesTo_of_decode_ok h)

/-- Settles O50: both laws say that a text decodes to a byte string exactly when it is its `encode`. -/
theorem base58RoundTrip : Obligations.Base58RoundTrip :=
  ⟨fun b => decode_eq_ok_iff.2 (decodesTo_encode58 b),
    fun _ _ h => (decodesTo_iff_eq_encode58.1 (decodesTo_of_decode_ok h)).symm⟩

/-- Settles O51: the 25 bytes pass the check by the way they are built, and their text decodes to them. -/
theorem addressRoundTrip : Obligations.AddressRoundTrip := by
  intro sha v p hp
  have hbody : ([v] ++ p).length = 21 := by simp [hp]
  have hsum : (first 4 (doubleHash sha ([v] ++ p))).length = 4 := by simp [first, slice]
  rw [decodeAddress_of_passesCheck (decodesTo_encode58 _) ((passesCheck_append hbody hsum).2 rfl)]
  have hpayload : addrPayload ([v] ++ p ++ first 4 (doubleHash sha ([v] ++ p))) = p := by
    rw [addrPayload, List.append_assoc]
    exact (slice_append_right (List.length_singleton) _ 0 20).trans (slice_append_left hp _)
  rw [hpayload]
  rfl

/-- Settles O52: the changed bytes are 25 again and no longer pass the check. -/
theorem changedAddressByteFailsTheChecksum : Obligations.ChangedAddressByteFailsTheChecksum := by
  intro sha r k x hp hk hx hnew
  have hlen : (r.set k x).length = 25 := (List.length_set ..).trans hp.1
  apply decodeAddress_of_not_passesCheck (decodesTo_encode58 _) hlen
  by_cases hlt : k < 21
  · exact not_passesCheck_set_of_lt hlt (hnew hlt)
  · exact not_passesCheck_set_of_le hp (Nat.le_of_not_lt hlt) hk hx

/-- Settles O43: the table of R181 read in both directions. -/
theorem digitValuesAreAlphabetPositions : Obligations.DigitValuesAreAlphabetPositions :=
  ⟨rfl, digitVal_digitChar, isSome_digitVal_iff, by decide⟩

/-- Settles O48: the command of the core at the machine's parameters. -/
theorem dhashWritesTheDoubleHash : Obligations.DhashWritesTheDoubleHash := fun sd sa s =>
  ⟨spells_of_wellFormed (i := .dhash sd sa) rfl, execWith_dhash machineParams sd sa s⟩

end Sys2Proof.Machine
end

section
/-! SUPPORT. Pay-to-pubkey-hash scripts: what a script is made of (spec/44_addressscript.md R210, R214), when an address
yields one (R212), and how `P2PKH` completes (R211). -/

namespace Sys2Proof.Machine

/-! ## The script of a hash -/

theorem payToPubkeyHash_of_length_ne {h : Bytes} (hl : h.length ≠ 20) : payToPubkeyHash h = .error .lengthError :=
  if_neg hl

theorem payToPubkeyHash_eq_ok_iff {h script : Bytes} : payToPubkeyHash h = .ok script ↔
    h.length = 20 ∧ [0x76#8, 0xA9#8, 0x14#8] ++ h ++ [0x88#8, 0xAC#8] = script := by
  by_cases hl : h.length = 20
  · rw [payToPubkeyHash_of_length hl, Except.ok.injEq, and_iff_right hl]
  · simp [payToPubkeyHash_of_length_ne hl, hl]

section
variable {h script : Bytes}

theorem first_payToPubkeyHash (hs : payToPubkeyHash h = .ok script) : first 3 script = [0x76#8, 0xA9#8, 0x14#8] := by
  obtain ⟨-, rfl⟩ := payToPubkeyHash_eq_ok_iff.1 hs
  rw [List.append_assoc]
  exact slice_append_left rfl _

/-- The hash can be read back from its script. -/
theorem slice_payToPubkeyHash_hash (hs : payToPubkeyHash h = .ok script) : slice script 3 20 = h := by
  obtain ⟨hl, rfl⟩ := payToPubkeyHash_eq_ok_iff.1 hs
  rw [List.append_assoc]
  exact (slice_append_right rfl _ 0 20).trans (slice_append_left hl _)

theorem slice_payToPubkeyHash_tail (hs : payToPubkeyHash h = .ok script) : slice script 23 2 = [0x88#8, 0xAC#8] := by
  obtain ⟨hl, rfl⟩ := payToPubkeyHash_eq_ok_iff.1 hs
  have hlen : ([0x76#8, 0xA9#8, 0x14#8] ++ h).length = 23 := by simp [hl]
  exact (slice_append_right hlen _ 0 2).trans (slice_of_length rfl)

end

/-! ## When the decoding of an address fails -/

theorem exists_decodeAddress_error {sha : HashFn} {text : Bytes} (h : ∀ r, DecodesTo text r → ¬ PassesCheck sha r) :
    ∃ e, decodeAddress sha text = .error e := by
  by_cases hd : AllDigits text
  · obtain ⟨r, hr⟩ := exists_decodesTo text hd
    by_cases hl : r.length = 25
    · exact ⟨_, decodeAddress_of_not_passesCheck hr hl (h r hr)⟩
    · exact ⟨_, decodeAddress_of_length_ne hr hl⟩
  · exact ⟨_, decodeAddress_of_badDigit hd⟩

/-! ## The commands -/

section
variable {sa sx : SIdx} {s t t1 : State}

theorem exec_p2pkh_of_length (sd : SIdx) (hl : (s.readS sa).length = 20) : ∃ t, exec (.p2pkh sd sa) s = .next t ∧
    WritesS sd ([0x76#8, 0xA9#8, 0x14#8] ++ s.readS sa ++ [0x88#8, 0xAC#8]) s t := by
  obtain ⟨t, ht⟩ := completeS_next sd (payToPubkeyHash (s.readS sa)) s
  exact ⟨t, ht, writesS_of_completeS ht (payToPubkeyHash_of_length hl)⟩

theorem exec_p2pkh_of_length_ne (sd : SIdx) (hl : (s.readS sa).length ≠ 20) : ∃ t, exec (.p2pkh sd sa) s = .next t ∧
    WritesOnlyErr .lengthError s t := by
  obtain ⟨t, ht⟩ := completeS_next sd (payToPubkeyHash (s.readS sa)) s
  exact ⟨t, ht, writesOnlyErr_of_completeS ht (payToPubkeyHash_of_length_ne hl)⟩

theorem exec_addrscr_of_error (sd : SIdx) {e : CmdError} (he : decodeAddress sha256Port (s.readS sa) = .error e) :
    ∃ t, exec (.addrscr sd sa) s = .next t ∧ WritesOnlyErr .invalidAddressError s t := by
  obtain ⟨t, ht⟩ := completeS_next sd (buildFromAddress sha256Port (s.readS sa)) s
  exact ⟨t, ht, writesOnlyErr_of_completeS ht (buildFromAddress_of_error he)⟩

/-- R213's equivalence, of a good address: both commands succeed, and `P2PKH` of the payload gives the same script. -/
theorem p2pkh_b58addr_eq_addrscr_of_passesCheck {sd : SIdx} {r : Bytes} (hr : DecodesTo (s.readS sa) r)
    (hp : PassesCheck sha256Port r) (ht : exec (.addrscr sd sa) s = .next t)
    (ht1 : exec (.b58addr sx sa) s = .next t1) :
    t.regs.status.err = .ok ∧ t1.regs.status.err = .ok ∧
      ∃ t2, exec (.p2pkh sd sx) t1 = .next t2 ∧ t2.regs.status.err = .ok ∧ t2.readS sd = t.readS sd := by
  have w := writesS_of_completeS ht (buildFromAddress_of_passesCheck hr hp)
  have w1 := writesAddr_of_completeAddr ht1 (decodeAddress_of_passesCheck hr hp)
  have hl : (t1.readS sx).length = 20 := by rw [w1.dest, length_addrPayload hp.1]
  obtain ⟨t2, ht2, w2⟩ := exec_p2pkh_of_length sd hl
  exact ⟨w.err, w1.err, t2, ht2, w2.err, by rw [w2.dest, w.dest, w1.dest]⟩

/-- R213's equivalence, of any other source: both commands fail. -/
theorem err_ne_ok_of_decodeAddress_error {sd : SIdx} {e : CmdError}
    (he : decodeAddress sha256Port (s.readS sa) = .error e) (ht : exec (.addrscr sd sa) s = .next t)
    (ht1 : exec (.b58addr sx sa) s = .next t1) : t.regs.status.err ≠ .ok ∧ t1.regs.status.err ≠ .ok := by
  have w := writesOnlyErr_of_completeS ht (buildFromAddress_of_error he)
  have w1 := writesOnlyErr_of_completeAddr ht1 he
  exact ⟨w.err ▸ CmdError.code_ne_ok _, w1.err ▸ CmdError.code_ne_ok _⟩

end

end Sys2Proof.Machine
end

section
/-! SUPPORT. The statements about AddressScript (spec/44_addressscript.md). -/

namespace Sys2Proof.Machine

/-- Settles O54: a source either decodes to bytes that pass the check, or its decoding fails; `ADDRSCR` and `B58ADDR` rest on
the same decoding. -/
theorem addrscrWritesTheScriptOfTheAddress : Obligations.AddrscrWritesTheScriptOfTheAddress := by
  intro sd sa s
  refine ⟨spells_of_wellFormed (i := .addrscr sd sa) rfl, fun r hr hp => ?_, fun hbad => ?_, fun sx t t1 ht ht1 => ?_⟩
  · obtain ⟨t, ht, -, hgood⟩ := execWith_addrscr_of_decodesTo machineParams sd sa hr
    exact ⟨t, ht, hgood hp⟩
  · obtain ⟨_, he⟩ := exists_decodeAddress_error hbad
    exact exec_addrscr_of_error sd he
  · by_cases hgood : ∃ r, DecodesTo (s.readS sa) r ∧ PassesCheck sha256Port r
    · obtain ⟨r, hr, hp⟩ := hgood
      obtain ⟨herr, herr1, hsame⟩ := p2pkh_b58addr_eq_addrscr_of_passesCheck hr hp ht ht1
      exact ⟨iff_of_true herr herr1, fun _ => hsame⟩
    · obtain ⟨_, he⟩ := exists_decodeAddress_error fun r hr hp => hgood ⟨r, hr, hp⟩
      obtain ⟨herr, herr1⟩ := err_ne_ok_of_decodeAddress_error he ht ht1
      exact ⟨iff_of_false herr herr1, fun h => absurd h herr1⟩

/-- Settles O55: the hash is a slice of its script, so the script determines it. -/
theorem scriptHasItsShapeAndIsInjective : Obligations.ScriptHasItsShapeAndIsInjective :=
  ⟨fun _ _ hs => ⟨length_payToPubkeyHash hs, first_payToPubkeyHash hs, slice_payToPubkeyHash_hash hs,
    slice_payToPubkeyHash_tail hs⟩,
    fun _ _ _ hs hs' => (slice_payToPubkeyHash_hash hs).symm.trans (slice_payToPubkeyHash_hash hs')⟩

/-- Settles O53: the length of the source alone decides whether `P2PKH` succeeds. -/
theorem p2pkhWritesTheScript : Obligations.P2pkhWritesTheScript := by
  intro sd sa s
  refine ⟨spells_of_wellFormed (i := .p2pkh sd sa) rfl, fun hl => ?_, exec_p2pkh_of_length_ne sd⟩
  obtain ⟨t, ht, hw⟩ := exec_p2pkh_of_length sd hl
  exact ⟨t, _, ht, hw, length_payToPubkeyHash (payToPubkeyHash_of_length hl), rfl⟩

end Sys2Proof.Machine
end

section
/-! SUPPORT. Several instances (spec/45_hashoracle.md R223): what a step leaves of a core's queue, and what a schedule's
first step leaves to the rest. -/

namespace Sys2Proof.Machine

section
variable {p : Params} {s t : State}

/-! ## The action a step takes, and the queue behind it -/

theorem stepWith_of_hostQueue_nil (h : s.hostQueue = []) : stepWith p s = .next s := by
  rw [stepWith, hostStepBy, h]

theorem stepWith_of_hostQueue_cons {a : HostAction} {rest : List HostAction} (h : s.hostQueue = a :: rest) :
    stepWith p s = hostActWith p a { s with hostQueue := rest } := by
  rw [stepWith, hostStepBy, h]; rfl

/-- A host action does the same in front of any other queue. -/
theorem hostActWith_next_withQueue {a : HostAction} (h : hostActWith p a s = .next t) (q : List HostAction) :
    hostActWith p a { s with hostQueue := q } = .next { t with hostQueue := q } := by
  rw [hostActWith_withQueue, h, withQueue]

theorem hostQueue_of_hostActWith {a : HostAction} (h : hostActWith p a s = .next t) : t.hostQueue = s.hostQueue := by
  have ht : t = { t with hostQueue := s.hostQueue } :=
    Host.Outcome.next.inj (h.symm.trans (hostActWith_next_withQueue h s.hostQueue))
  rw [ht]

theorem hostActsWith_cons {a : HostAction} (as : List HostAction) (h : hostActWith p a s = .next t) :
    hostActsWith p (a :: as) s = hostActsWith p as t := by
  rw [hostActsWith, h]

/-- The first m + 1 actions of a core's own queue are those of a step, then the first m of what the step leaves. -/
theorem hostActsWith_take_succ_of_stepWith (h : stepWith p s = .next t) (m : Nat) :
    hostActsWith p (s.hostQueue.take (m + 1)) { s with hostQueue := s.hostQueue.drop (m + 1) } =
      hostActsWith p (t.hostQueue.take m) { t with hostQueue := t.hostQueue.drop m } := by
  cases hq : s.hostQueue with
  | nil =>
    obtain rfl : s = t := Host.Outcome.next.inj ((stepWith_of_hostQueue_nil hq).symm.trans h)
    simp only [hq, List.take_nil, List.drop_nil]
  | cons a rest =>
    have hact : hostActWith p a { s with hostQueue := rest } = .next t := (stepWith_of_hostQueue_cons hq).symm.trans h
    have hrest : t.hostQueue = rest := hostQueue_of_hostActWith hact
    rw [List.take_succ_cons, List.drop_succ_cons, hrest]
    exact hostActsWith_cons _ (hostActWith_next_withQueue hact (rest.drop m))

end

/-! ## Schedules -/

section
variable {n : Nat} {p : Params} {cores cores' : Fin n → State} {k : Fin n}

theorem stepInstance_inv (h : stepInstance p cores k = some cores') :
    ∃ t, stepWith p (cores k) = .next t ∧ cores' = Function.update cores k t := by
  unfold stepInstance at h
  split at h
  next t ht => exact ⟨t, ht, (Option.some.inj h).symm⟩
  all_goals cases h

theorem runSchedule_cons_inv {rest : List (Fin n)} (h : runSchedule p (k :: rest) cores = some cores') :
    ∃ t, stepWith p (cores k) = .next t ∧ runSchedule p rest (Function.update cores k t) = some cores' := by
  obtain ⟨mid, hmid, hrest⟩ := Option.bind_eq_some_iff.1 h
  obtain ⟨t, ht, rfl⟩ := stepInstance_inv hmid
  exact ⟨t, ht, hrest⟩

end

end Sys2Proof.Machine
end

section
/-! SUPPORT. The statements about the hash oracle (spec/45_hashoracle.md). -/

namespace Sys2Proof.Machine

/-- Settles O26, by induction on the schedule: its first step takes the first action of the core it names, if there is
one, and leaves every other core as it is. -/
theorem interleavedInstancesRunAsAlone : Obligations.InterleavedInstancesRunAsAlone := by
  intro p n schedule cores cores' h k
  induction schedule generalizing cores with
  | nil =>
    obtain rfl : cores = cores' := Option.some.inj h
    rfl
  | cons j rest ih =>
    obtain ⟨t, ht, hrest⟩ := runSchedule_cons_inv h
    have hk := ih _ hrest
    obtain rfl | hjk := eq_or_ne j k
    · rw [Function.update_self] at hk
      rw [List.count_cons_self, hostActsWith_take_succ_of_stepWith ht, hk]
    · rw [Function.update_of_ne hjk.symm] at hk
      rw [List.count_cons_of_ne hjk, hk]

/-- Settles O56: the length of the source alone decides whether `POWH` asks the oracle. -/
theorem powhWritesTheOraclesDigest : Obligations.PowhWritesTheOraclesDigest := fun sd sa _ =>
  ⟨spells_of_wellFormed (i := .powh sd sa) rfl, fun _ => exec_powh_of_eq sd sa,
    execWith_powh_of_length_ne machineParams sd sa⟩

end Sys2Proof.Machine
end

section
/-! SUPPORT. The padding of SHA-256 (spec/46_sha256_reference.md R236) and the statement about it. -/

namespace Sys2Proof.Machine

theorem length_shaPad (m : Bytes) : (shaPad m).length = m.length + 1 + (55 + 63 * m.length) % 64 + 8 := by
  simp only [shaPad, List.length_append, List.length_singleton, length_rep, length_be]

/-- R236 counts the zero bytes so that they fill the last block: L + 1 + (55 + 63 L) + 8 is 64 (L + 1). -/
theorem length_shaPad_mod (m : Bytes) : (shaPad m).length % 64 = 0 := by
  rw [length_shaPad]
  omega

/-- Settles O58: the zero bytes are the ones `shaPad` counts, a remainder modulo 64. -/
theorem paddingFillsWholeBlocks : Obligations.PaddingFillsWholeBlocks := fun m =>
  ⟨(55 + 63 * m.length) % 64, Nat.mod_lt _ (by decide), rfl, length_shaPad_mod m⟩

end Sys2Proof.Machine
end

section
/-! SUPPORT. How a command ends (spec/60_exceptions.md R251, R252, R256): it always answers, and it has then succeeded or
written one code of its row of the error matrix. -/

namespace Sys2Proof.Machine

theorem ErrCode.toNat_toByte_le (c : ErrCode) : c.toByte.toNat ≤ 8 := by
  cases c <;> decide

/-! ## The failures of each function of the rules (R252) -/

section
variable {e : CmdError} {b : Bytes}

section
variable {α : Type} {c : Prop} {_ : Decidable c} {a : α} {e₀ : CmdError}

theorem eq_of_ite_ok_error (h : (if c then .ok a else .error e₀ : Except CmdError α) = .error e) : e = e₀ := by
  split at h
  · cases h
  · exact (Except.error.inj h).symm

theorem eq_of_ite_error_ok (h : (if c then .error e₀ else .ok a : Except CmdError α) = .error e) : e = e₀ := by
  split at h
  · exact (Except.error.inj h).symm
  · cases h

end

theorem fromBytesLE_error (h : fromBytesLE b = .error e) : e = .lengthError := eq_of_ite_ok_error h

theorem reverseHexWordGroups_error (h : reverseHexWordGroups b = .error e) : e = .formatError := eq_of_ite_ok_error h

theorem chunkswap80_error (h : chunkswap80 b = .error e) : e = .lengthError := eq_of_ite_ok_error h

theorem payToPubkeyHash_error (h : payToPubkeyHash b = .error e) : e = .lengthError := eq_of_ite_ok_error h

theorem toTarget_error {m : Uint256} {d : Nat} (h : toTarget m d = .error e) : e = .rangeError :=
  eq_of_ite_error_ok h

theorem powHash_error {pow : Vector Byte 80 → Vector Byte 32} (h : powHash pow b = .error e) : e = .lengthError := by
  unfold powHash at h
  split at h
  · exact (Except.error.inj h).symm
  · cases h

theorem decode_none_error (h : decode b none = .error e) : e = .badDigit := by
  by_cases hd : AllDigits b
  · obtain ⟨r, hr⟩ := exists_decodesTo b hd
    rw [decode_of_decodesTo hr] at h
    cases h
  · exact Except.error.inj (h.symm.trans (decode_of_badDigit hd none))

theorem decode_some_error {n : Nat} (h : decode b (some n) = .error e) : e = .badDigit ∨ e = .lengthMismatchError := by
  by_cases hd : AllDigits b
  · obtain ⟨r, hr⟩ := exists_decodesTo b hd
    rw [decode_of_decodesTo hr] at h
    exact .inr (eq_of_ite_error_ok h)
  · exact .inl (Except.error.inj (h.symm.trans (decode_of_badDigit hd _)))

theorem decodeAddress_error {sha : HashFn} (h : decodeAddress sha b = .error e) :
    e = .badDigit ∨ e = .lengthMismatchError ∨ e = .checksumError := by
  unfold decodeAddress at h
  split at h
  · next he => cases h; exact (decode_some_error he).imp_right .inl
  · exact .inr (.inr (eq_of_ite_error_ok h))

/-- The payload of an address that passes the check has the length `payToPubkeyHash` asks for, so its failure never shows. -/
theorem buildFromAddress_error {sha : HashFn} (h : buildFromAddress sha b = .error e) : e = .invalidAddressError := by
  by_cases hgood : ∃ r, DecodesTo b r ∧ PassesCheck sha r
  · obtain ⟨r, hr, hp⟩ := hgood
    rw [buildFromAddress_of_passesCheck hr hp] at h
    cases h
  · obtain ⟨_, he⟩ := exists_decodeAddress_error fun r hr hp => hgood ⟨r, hr, hp⟩
    exact Except.error.inj (h.symm.trans (buildFromAddress_of_error he))

end

/-! ## A completion that answered has succeeded, or written only the code of a failure of its function -/

/-- From s to t: a command has succeeded, or failed with one of these codes and written nothing else. -/
def EndsWith (codes : List ErrCode) (s t : State) : Prop :=
  t.regs.status.err = .ok ∨ ∃ e : CmdError, e.code ∈ codes ∧ WritesOnlyErr e.code s t

section
variable {s t : State} {codes : List ErrCode}

theorem EndsWith.err_mem (h : EndsWith codes s t) (hok : .ok ∈ codes) : t.regs.status.err ∈ codes := by
  obtain herr | ⟨e, he, w⟩ := h
  · exact herr ▸ hok
  · exact w.err ▸ he

theorem EndsWith.writesOnlyErr (h : EndsWith codes s t) (herr : t.regs.status.err ≠ .ok) :
    WritesOnlyErr t.regs.status.err s t := by
  obtain hok | ⟨e, -, w⟩ := h
  · exact absurd hok herr
  · rwa [w.err]

theorem completeS_endsWith {d : SIdx} {r : Except CmdError Bytes} (ht : completeS d r s = .next t)
    (hr : ∀ e, r = .error e → e.code ∈ codes) : EndsWith codes s t := by
  obtain ⟨b, -, w⟩ | ⟨e, he, w⟩ := completeS_inv ht
  · exact .inl w.err
  · exact .inr ⟨e, hr e he, w⟩

theorem completeU_endsWith {d : UIdx} {r : Except CmdError Uint256} (ht : completeU d r s = .next t)
    (hr : ∀ e, r = .error e → e.code ∈ codes) : EndsWith codes s t := by
  obtain ⟨v, -, w⟩ | ⟨e, he, w⟩ := completeU_inv ht
  · exact .inl w.err
  · exact .inr ⟨e, hr e he, w⟩

theorem completeAddr_endsWith {d : SIdx} {r : Except CmdError (Byte × Bytes)} (ht : completeAddr d r s = .next t)
    (hr : ∀ e, r = .error e → e.code ∈ codes) : EndsWith codes s t := by
  obtain ⟨version, payload, -, w⟩ | ⟨e, he, w⟩ := completeAddr_inv ht
  · exact .inl w.err
  · exact .inr ⟨e, hr e he, w⟩

/-- The row of a command that fails in one way only. -/
theorem code_mem_pair {e e₀ : CmdError} (h : e = e₀) : e.code ∈ [ErrCode.ok, e₀.code] := by
  simp [h]

variable {i : Instr}

/-- R252, command by command. -/
theorem exec_endsWith (ht : exec i s = .next t) : EndsWith (mayReport i) s t := by
  cases i with
  | tole | tobew | hser | dhash => exact completeS_endsWith (r := .ok _) ht nofun
  | meets => exact .inl (writesFlag_of_completeFlag ht).err
  | fromle => exact completeU_endsWith ht fun _ he => code_mem_pair (fromBytesLE_error he)
  | rhwg => exact completeS_endsWith ht fun _ he => code_mem_pair (reverseHexWordGroups_error he)
  | wswap => exact completeS_endsWith ht fun _ he => code_mem_pair (chunkswap80_error he)
  | totgt => exact completeU_endsWith ht fun _ he => code_mem_pair (toTarget_error he)
  | b58dec => exact completeS_endsWith ht fun _ he => code_mem_pair (decode_none_error he)
  | b58decLen =>
    refine completeS_endsWith ht fun e he => ?_
    obtain rfl | rfl := decode_some_error he <;> simp [mayReport, CmdError.code]
  | b58addr =>
    refine completeAddr_endsWith ht fun e he => ?_
    obtain rfl | rfl | rfl := decodeAddress_error he <;> simp [mayReport, CmdError.code]
  | p2pkh => exact completeS_endsWith ht fun _ he => code_mem_pair (payToPubkeyHash_error he)
  | addrscr => exact completeS_endsWith ht fun _ he => code_mem_pair (buildFromAddress_error he)
  | powh => exact completeS_endsWith ht fun _ he => code_mem_pair (powHash_error he)

theorem ok_mem_mayReport (i : Instr) : ErrCode.ok ∈ mayReport i := by
  cases i <;> exact .head _

/-! ## Every command answers (R256) -/

theorem exec_next (i : Instr) (s : State) : ∃ t, exec i s = .next t := by
  cases i with
  | fromle | totgt => exact completeU_next ..
  | tole | tobew | hser | meets | dhash => exact ⟨_, rfl⟩
  | b58addr => exact completeAddr_next ..
  | _ => exact completeS_next ..

theorem hostIssue_next (c : Word32) (s : State) : ∃ t, hostIssue c s = .next t := by
  cases hd : decodeWord c with
  | ok i =>
    rw [hostIssue_of_ok hd]
    exact exec_next i s
  | error e => exact ⟨_, hostIssue_of_error (by simp [hd]) s⟩

/-! ## A command that failed fails again (R251): it reads the same sources, and rewrites the code that stands there -/

theorem sourcesAgree_of_writesOnlyErr {c : ErrCode} (i : Instr) (w : WritesOnlyErr c s t) : sourcesAgree i s t := by
  cases i with
  | tole sd ua | tobew sd ua => exact (w.allU ua).symm
  | hser => exact ⟨w.hversion.symm, w.hprev.symm, w.hmerkle.symm, w.htime.symm, w.hbits.symm, w.hnonce.symm⟩
  | totgt => exact w.diff.symm
  | meets ua ub => exact ⟨(w.allU ua).symm, (w.allU ub).symm⟩
  | _ => exact (w.allS _).symm

theorem eq_of_writesOnlyErr (w : WritesOnlyErr s.regs.status.err s t) : t = s := by
  obtain ⟨⟨u, b, hversion, hprev, hmerkle, htime, hbits, hnonce, diff, ⟨err, flag, aver⟩⟩, queue, last⟩ := s
  obtain ⟨⟨u', b', _, _, _, _, _, _, _, ⟨_, _, _⟩⟩, _, _⟩ := t
  obtain ⟨⟨rfl, rfl, rfl, rfl, rfl, rfl, rfl, rfl, rfl⟩, hu, hs, rfl, rfl, rfl⟩ := w
  obtain rfl : u' = u := Bank.ext_get _ _ hu
  obtain rfl : b' = b := Bank.ext_get _ _ hs
  rfl

theorem exec_again_of_failed (ht : exec i s = .next t) (herr : t.regs.status.err ≠ .ok) : exec i t = .next t := by
  have w := (exec_endsWith ht).writesOnlyErr herr
  obtain ⟨t', ht'⟩ := exec_next i t
  obtain ⟨hcode, -⟩ := commandDependsOnlyOnItsSources i s t t t' (sourcesAgree_of_writesOnlyErr i w) ht ht'
  have w' : WritesOnlyErr t.regs.status.err t t' := by
    rw [hcode]
    exact (exec_endsWith ht').writesOnlyErr (hcode ▸ herr)
  rw [ht', eq_of_writesOnlyErr w']

/-! ## Host writes and `STATUS` (R62) -/

theorem status_writeReg {cap : Nat} {r : RegName} {v : RegValue} {g g' : Regs} (h : writeReg cap r v g = some g') :
    g'.status = g.status := by
  cases r with
  | status | cmd => cases h
  | _ => obtain ⟨_, -, rfl⟩ := Option.map_eq_some_iff.1 h; rfl

end

end Sys2Proof.Machine
end

section
/-! SUPPORT. The statements about errors and their codes (spec/60_exceptions.md). -/

namespace Sys2Proof.Machine

/-- Settles O21: every word decodes to a command, or raises `IllegalCommand`. -/
theorem everyCommandGoesOn : Obligations.EveryCommandGoesOn :=
  ⟨exec_next, hostIssue_next, fun _ => ⟨_, rfl⟩⟩

/-- Settles O22: after a failure only the code has changed, and no command reads it. -/
theorem failedCommandWritesOnlyErrAndFailsAgain : Obligations.FailedCommandWritesOnlyErrAndFailsAgain := by
  refine ⟨fun i s t ht herr => ⟨(exec_endsWith ht).writesOnlyErr herr, exec_again_of_failed ht herr⟩,
    fun n v s t hn ht => ?_, fun n s t ht => ?_⟩
  · obtain ⟨r, g, -, hg, rfl⟩ := hostWriteBy_inv_of_ne_cmd hn ht
    exact status_writeReg hg
  · obtain ⟨v, rfl⟩ := hostRead_inv ht
    rfl

/-- Settles O23: the row of each command, and 0 for success. -/
theorem commandsReportOnlyTheirErrors : Obligations.CommandsReportOnlyTheirErrors := fun i _ _ ht =>
  (exec_endsWith ht).err_mem (ok_mem_mayReport i)

/-- Settles O18: the table itself, and the low byte of the word is the code. -/
theorem errorCodesHaveTheirNumbers : Obligations.ErrorCodesHaveTheirNumbers := by
  refine ⟨rfl, rfl, rfl, rfl, rfl, rfl, rfl, rfl, rfl, fun s => ?_⟩
  have hcode := s.regs.status.err.toNat_toByte_le
  rw [toNat_statusWord]
  omega

end Sys2Proof.Machine
end

section
/-! SUPPORT. The statements about reset (spec/70_reset_and_hazards.md). -/

namespace Sys2Proof.Machine

/-! ## What the functions of the rules give on the registers of the reset state (R281) -/

@[simp] theorem readU_reset (i : UIdx) : State.reset.readU i = 0#256 := by
  fin_cases i <;> rfl

theorem length_readS_reset_ne (i : SIdx) {n : Nat} (hn : n ≠ 0) : (State.reset.readS i).length ≠ n := by
  rw [readS_reset]
  exact hn.symm

theorem statusWord_reset : statusWord Regs.reset.status = 0#32 := by decide

theorem toBytesLE_zero : toBytesLE 0#256 = rep 0#8 32 := by decide

theorem toBytesBEWordwise_zero : toBytesBEWordwise 0#256 = rep 0#8 32 := by decide

theorem serializeRegs_reset : serializeRegs State.reset.regs = rep 0#8 80 := by decide

theorem decodesTo_readS_reset (i : SIdx) : DecodesTo (State.reset.readS i) [] := by
  rw [readS_reset]
  exact decodesTo_encode58 []

/-- Settles O16, register by register. -/
theorem resetGivesEveryRegisterItsResetValue : Obligations.ResetGivesEveryRegisterItsResetValue := fun _ =>
  ⟨_, rfl, readU_reset, readS_reset, rfl, Vector.toList_replicate, rfl, Vector.toList_replicate, rfl,
    Vector.toList_replicate, rfl, statusWord_reset, rfl⟩

/-- Settles O59: every source is an empty string or 0, which decides the case of each command. -/
theorem commandsStraightAfterReset : Obligations.CommandsStraightAfterReset := by
  refine ⟨fun sd => ?_, fun sd ua => ?_, fun sd ua => ?_, fun ua ub => ?_, fun ud => exec_totgt_of_zero ud rfl,
    fun ud sa => exec_fromle_of_length_ne ud sa (length_readS_reset_ne sa (by decide)),
    fun sd sa => exec_wswap_of_length_ne sd sa (length_readS_reset_ne sa (by decide)),
    fun sd sa => execWith_powh_of_length_ne machineParams sd sa (length_readS_reset_ne sa (by decide)),
    fun sd sa => exec_p2pkh_of_length_ne sd (length_readS_reset_ne sa (by decide)),
    fun sd sa => exec_rhwg_of_length_ne sd sa (length_readS_reset_ne sa (by decide)),
    fun sd sa => exec_b58dec_of_decodesTo sd sa (decodesTo_readS_reset sa), fun sd sa => ?_, fun sd sa => ?_,
    fun sd sa => exec_addrscr_of_error sd (decodeAddress_of_length_ne (decodesTo_readS_reset sa) (by decide)),
    fun sd sa => ?_⟩
  · rw [← serializeRegs_reset]
    exact exec_hser sd _
  · rw [← toBytesLE_zero, ← readU_reset ua]
    exact exec_tole sd ua _
  · rw [← toBytesBEWordwise_zero, ← readU_reset ua]
    exact exec_tobew sd ua _
  · obtain ⟨t, ht, w⟩ := exec_meets ua ub State.reset
    rw [readU_reset, readU_reset] at w
    exact ⟨t, ht, w⟩
  · obtain ⟨t, ht, hok, -⟩ := exec_b58decLen_of_decodesTo sd sa (decodesTo_readS_reset sa) 0
    exact ⟨t, ht, hok rfl⟩
  · obtain ⟨t, ht, hlen, -⟩ := execWith_b58addr_of_decodesTo machineParams sd sa (decodesTo_readS_reset sa)
    exact ⟨t, ht, hlen (by decide)⟩
  · rw [← readS_reset sa]
    exact execWith_dhash machineParams sd sa _

end Sys2Proof.Machine
end
